-- ==== Sys2Proof/Word.lean ====
section
/-! DEFINITION. The value types of the CORE: bytes, words and byte strings (spec/00_scope.md R6). -/

namespace Sys2Proof

/-- A byte, `0..255` (R6). -/
abbrev Byte := BitVec 8

/-- A word, `0..2^32 - 1` (R6). -/
abbrev Word := BitVec 32

/-- `a ^ b` on two byte strings, byte by byte (R7). It stops at the shorter one, so XOR-ing `m` bytes with a
keystream block of at least `m` bytes uses the block's first `m` bytes. -/
def xorBytes (a b : List Byte) : List Byte := List.zipWith (· ^^^ ·) a b

end Sys2Proof
end

