-- ==== Sys2Proof/Syntax.lean ====
section
/-! DEFINITION. The eight commands of spec/30_encoding.md R80 with the operands of their formats (R84 to R89), and the
word sequences that carry them. -/

namespace Sys2Proof

/-- A descriptor: the framed sequence of words `W[0], W[1], ...` on the command port (R81). -/
abbrev Descriptor := List Word

/-- An operand range: an address in `BUF` and a length, or for a destination its declared capacity `DST_CAP` (R83). -/
structure Region where
  addr : Word
  len : Word
deriving DecidableEq, Repr

/-- The address as a natural number (R7, R91). -/
def Region.a (r : Region) : Nat := r.addr.toNat

/-- The length, or the capacity of a destination, as a natural number (R7, R91). -/
def Region.n (r : Region) : Nat := r.len.toNat

/-- A command. Every field holds any 32-bit value (R93: no operand field has reserved values); `rounds` and `tagSize`
are read as signed numbers by the commands themselves (R91). -/
inductive Instr where
  /-- `CC_XOR`, format X (R84). -/
  | ccXor (rounds counter : Word) (key : Vector Word 8) (nonce : Vector Word 3) (dst src : Region)
  /-- `CC_NEW`, format N (R85). -/
  | ccNew (rounds : Word) (key : Vector Word 8) (nonce : Vector Word 3)
  /-- `CC_STREAM`, format M (R86). -/
  | ccStream (dst src : Region)
  /-- `EAX_NEW`, format T (R87). -/
  | eaxNew (tagSize : Word)
  /-- `EAX_NONCESIZE`, format Q (R88). -/
  | eaxNonceSize
  /-- `EAX_OVERHEAD`, format Q (R88). -/
  | eaxOverhead
  /-- `EAX_SEAL`, format A (R89). -/
  | eaxSeal (dst nonce text ad : Region)
  /-- `EAX_OPEN`, format A (R89). -/
  | eaxOpen (dst nonce text ad : Region)
deriving DecidableEq, Repr

end Sys2Proof
end

