-- ==== Sys2Proof/Decode.lean ====
section
/-! DEFINITION. The decoder, total on every word sequence (spec/30_encoding.md R92 to R94), the encoder written from the
same format tables (R84 to R89), and the little-endian byte transport of R81. -/

namespace Sys2Proof

/-- Why a descriptor is illegal (R93). The CORE answers `ST_ILLEGAL_CMD` to each alike. -/
inductive Illegal where
  /-- `k = 0`. -/
  | emptyFrame
  /-- `W[0][31:8] != 0`. -/
  | reservedBits
  /-- `OPC` is not one of the eight opcodes. -/
  | unusedOpcode
  /-- `k` differs from the word count of the format that `OPC` selects. -/
  | wrongWordCount
  /-- A byte transport delivered a number of bytes that no number of words has (R81); no frame of words is this. -/
  | brokenWord
deriving DecidableEq, Repr

/-- The decoder's verdict (R94). -/
inductive Decoded where
  | illegal (why : Illegal)
  | command (i : Instr)
deriving DecidableEq, Repr

/-- Words 1 to 17 of format X (R84). -/
def decodeX : List Word → Decoded
  | [rounds, counter, k0, k1, k2, k3, k4, k5, k6, k7, n0, n1, n2, da, dc, sa, sl] =>
    .command (.ccXor rounds counter #v[k0, k1, k2, k3, k4, k5, k6, k7] #v[n0, n1, n2] ⟨da, dc⟩ ⟨sa, sl⟩)
  | _ => .illegal .wrongWordCount

/-- Words 1 to 12 of format N (R85). -/
def decodeN : List Word → Decoded
  | [rounds, k0, k1, k2, k3, k4, k5, k6, k7, n0, n1, n2] =>
    .command (.ccNew rounds #v[k0, k1, k2, k3, k4, k5, k6, k7] #v[n0, n1, n2])
  | _ => .illegal .wrongWordCount

/-- Words 1 to 4 of format M (R86). -/
def decodeM : List Word → Decoded
  | [da, dc, sa, sl] => .command (.ccStream ⟨da, dc⟩ ⟨sa, sl⟩)
  | _ => .illegal .wrongWordCount

/-- Word 1 of format T (R87). -/
def decodeT : List Word → Decoded
  | [tagSize] => .command (.eaxNew tagSize)
  | _ => .illegal .wrongWordCount

/-- Format Q: the header alone (R88). -/
def decodeQ (i : Instr) : List Word → Decoded
  | [] => .command i
  | _ => .illegal .wrongWordCount

/-- Words 1 to 8 of format A (R89). -/
def decodeA (mk : (dst nonce text ad : Region) → Instr) : List Word → Decoded
  | [da, dc, na, nl, ta, tl, aa, al] => .command (mk ⟨da, dc⟩ ⟨na, nl⟩ ⟨ta, tl⟩ ⟨aa, al⟩)
  | _ => .illegal .wrongWordCount

/-- The opcode map (R92) over `OPC`, on the words after the header. -/
def decodeBody (opc : Nat) (args : List Word) : Decoded :=
  match opc with
  | 0x01 => decodeX args
  | 0x02 => decodeN args
  | 0x03 => decodeM args
  | 0x10 => decodeT args
  | 0x11 => decodeQ .eaxNonceSize args
  | 0x12 => decodeQ .eaxOverhead args
  | 0x13 => decodeA .eaxSeal args
  | 0x14 => decodeA .eaxOpen args
  | _ => .illegal .unusedOpcode

/-- The decoder (R94): the header's bits 31..8 must be zero, its bits 7..0 are `OPC` (R82). -/
def decode : Descriptor → Decoded
  | [] => .illegal .emptyFrame
  | header :: args =>
    if header.toNat / 256 ≠ 0 then .illegal .reservedBits else decodeBody (header.toNat % 256) args

/-- A region as two descriptor words, address first (R84, R86, R89). -/
def Region.words (r : Region) : List Word := [r.addr, r.len]

/-- The descriptor of a command, from the format tables of R84 to R89. -/
def encode : Instr → Descriptor
  | .ccXor rounds counter key nonce dst src =>
    [0x01, rounds, counter] ++ key.toList ++ nonce.toList ++ dst.words ++ src.words
  | .ccNew rounds key nonce => [0x02, rounds] ++ key.toList ++ nonce.toList
  | .ccStream dst src => [0x03] ++ dst.words ++ src.words
  | .eaxNew tagSize => [0x10, tagSize]
  | .eaxNonceSize => [0x11]
  | .eaxOverhead => [0x12]
  | .eaxSeal dst nonce text ad => [0x13] ++ dst.words ++ nonce.words ++ text.words ++ ad.words
  | .eaxOpen dst nonce text ad => [0x14] ++ dst.words ++ nonce.words ++ text.words ++ ad.words

/-- A word on a byte-wide transport: bits 7..0 first (R81). -/
def wordBytes (w : Word) : List Byte :=
  [w.setWidth 8, (w >>> 8).setWidth 8, (w >>> 16).setWidth 8, (w >>> 24).setWidth 8]

/-- A word from four transported bytes, the first one bits 7..0 (R81). -/
def bytesWord (b0 b1 b2 b3 : Byte) : Word :=
  b0.setWidth 32 ||| (b1.setWidth 32 <<< 8) ||| (b2.setWidth 32 <<< 16) ||| (b3.setWidth 32 <<< 24)

/-- A frame of words as transported bytes (R81). -/
def frameBytes (ws : List Word) : List Byte := ws.flatMap wordBytes

/-- The words of a transported frame; `none` when the last word is not complete. -/
def bytesFrame : List Byte → Option (List Word)
  | [] => some []
  | b0 :: b1 :: b2 :: b3 :: rest => (bytesFrame rest).map (bytesWord b0 b1 b2 b3 :: ·)
  | _ => none

/-- The decoder on a byte-wide transport. -/
def decodeBytes (bs : List Byte) : Decoded :=
  match bytesFrame bs with
  | some ws => decode ws
  | none => .illegal .brokenWord

/-- How many words the format of `OPC` has, for a descriptor of which only the first bits are given: the format's
count (R92), or one word where `OPC` selects no format. -/
def frameWords (opc : Nat) : Nat :=
  match opc with
  | 0x01 => 18
  | 0x02 => 13
  | 0x03 => 5
  | 0x10 => 2
  | 0x13 => 9
  | 0x14 => 9
  | _ => 1

/-- The first `k` words of a descriptor whose bits are `v`, word `j` at bits `32 j + 31 .. 32 j`; only the lowest `nbits`
bits are given, and every bit above them is 0. -/
def takeWords : (k nbits v : Nat) → List Word
  | 0, _, _ => []
  | k + 1, nbits, v => BitVec.ofNat 32 (v % 2 ^ min nbits 32) :: takeWords k (nbits - 32) (v / 2 ^ 32)

/-- The descriptor whose bits are `w`, numbered as spec/opcode_table.json numbers them (bit 0 the least significant bit
of word 0): as many words as `nbits` bits need, and at least those of the format that the header selects. -/
def tableDescriptor (nbits w : Nat) : Descriptor :=
  takeWords (max ((nbits + 31) / 32) (frameWords (w % 2 ^ min nbits 32 % 256))) nbits w

/-- The command the decoder reads from the descriptor whose bits are `w`. -/
def decodeTableWord (nbits w : Nat) : Option Instr :=
  match decode (tableDescriptor nbits w) with
  | .command i => some i
  | .illegal _ => none

end Sys2Proof
end

