-- ==== Sys2Proof/Config.lean ====
section
/-! DEFINITION. The implementation parameters of spec/00_scope.md R5 and the free values of the model. Nothing here
changes during a run. Which of the function pairs `E` and `MAC` is attached does (spec/70_reset_and_hazards.md R226): that
is the field `attached` of the state. -/

namespace Sys2Proof

/-- The parameters of R5 that are no functions, with the limits R5 puts on them and no other. The values after `:=`, here
and below, only show Lean that such parameters exist; the opaque constants do not have them. -/
structure Sizes where
  /-- Block size of the attached block cipher, in bytes. -/
  B : Nat := 1
  B_pos : 1 ≤ B := by decide
  /-- Whether the MAC construction accepts block size `B` (R13). -/
  MAC_SUPPORTED : Bool := true
  /-- Bytes in the buffer memory. -/
  BUF_SIZE : Nat := 1
  BUF_SIZE_pos : 1 ≤ BUF_SIZE := by decide
  BUF_SIZE_le : BUF_SIZE ≤ 2 ^ 32 := by decide
deriving Inhabited

/-- The functions behind the two function ports. Each is a function of its input alone (R12, R13); nothing ties `MAC` to
`E`. -/
structure Collaborators (B : Nat) where
  /-- Encrypt-one-block (R12); the CORE applies it to `B`-byte strings only. -/
  E : List Byte → List Byte := fun _ => List.replicate B 0
  E_length : ∀ x, (E x).length = B := by simp
  /-- Reset, write the bytes, read the sum (R13). -/
  MAC : List Byte → List Byte := fun _ => List.replicate B 0
  MAC_length : ∀ m, (MAC m).length = B := by simp
deriving Inhabited

/-- The parameters of R5, as one command is run with them: within a command none of them changes (R226). -/
structure Params extends Sizes, Collaborators B

/-- The sizes of the CORE at hand: OPEN in R5, so opaque. Log entry 8. -/
opaque Config.sizes : Sizes

/-- The functions that the integrator can attach, each under a number that the model gives it, a key say: OPEN in R5, so
opaque. Log entry 8. -/
opaque Config.collaborators : (key : Nat) → Collaborators Config.sizes.B

/-- The parameters while the functions of number `key` are attached (R226). -/
def Config.params (key : Nat) : Params := { Config.sizes, Config.collaborators key with }

/-- Free values: byte `i` of draw number `d`. It stands for a byte of `BUF` or of a register that holds no value
(R45, R46, R161). Log entries 2 and 6. -/
opaque Config.freeByte : (d i : Nat) → Byte

/-- The word `EAX_NONCESIZE` answers for a block size that no word holds: R162 and R95 state no result there. Log entry 9. -/
opaque Config.wideNonceSize : (b : Nat) → Word

end Sys2Proof
end

