-- ==== Sys2Proof/Machine/State.lean ====
section
/-! DEFINITION. The state of the CORE (spec/10_state.md R20), what passes over its ports, the reasons a step can stop,
and the state after reset (R45). -/

namespace Sys2Proof.Machine

/-- `BUF` as the list of the bytes that hold a value, addresses strictly rising (`Memory.wf`, Machine/Ops.lean). An
address that is not listed holds no value (R45). -/
abbrev Memory := List Host.Cell

/-- The ChaCha state: 16 words (R21). -/
abbrev ChaState := Vector Word 16

/-- A keystream block: 64 bytes (R5). -/
abbrev Block := Vector Byte 64

/-- The status names of spec/60_exceptions.md R190; their codes are `Status.code`. -/
inductive Status where
  | ok
  | invalidParam
  | authFail
  | unsupportedCipher
  | illegalCmd
  | noContext
  | badAddress
  | badAlias
deriving DecidableEq, Repr

/-- A response `(STATUS, VALUE, TAG)` (R11). -/
structure Response where
  status : Status
  value : Word
  tag : List Byte
deriving DecidableEq, Repr

/-- What the CORE drives onto the function ports: the MAC unit's protocol (R176) and the calls of `E` (R177). -/
inductive PortEvent where
  | macReset
  | macWrite (bytes : List Byte)
  | macReadSum
  | encrypt (block : List Byte)
deriving DecidableEq, Repr

/-- What comes to the CORE from outside, each between two commands: a descriptor on the command port (R81), a write of
`BUF` by the host (R64), the reset event (R220), the integrator re-keying the block cipher: from then on the functions
numbered `key` are attached (R226). -/
inductive HostMove where
  | issue (descriptor : Descriptor)
  | write (addr : Nat) (bytes : List Byte)
  | reset
  | rekey (key : Nat)
deriving DecidableEq, Repr

/-- The state (R20), the ports, and the model's own counter of free values. -/
structure State where
  /-- The stream context is filled (R26). -/
  CC_VALID : Bool
  /-- The ChaCha state of the stream cipher (R21). -/
  S : ChaState
  /-- The block of the last final partial remainder (R23). -/
  KB : Block
  /-- Bytes of `KB` consumed; 0 for no leftover (R24). -/
  OFF : Fin 64
  /-- The round count (R25). -/
  ROUNDS : Nat
  /-- The EAX context is filled (R30). -/
  EAX_VALID : Bool
  /-- The tag size in bytes (R31). -/
  TAGSIZE : Nat
  /-- The counter-mode register, `B` bytes, the first most significant (R32). -/
  CTR : List Byte
  /-- The keystream register, `B` bytes (R33). -/
  KS : List Byte
  /-- The buffer memory (R36). -/
  BUF : Memory
  /-- The MODEL's own: the number of the functions attached to the ports `E` and `MAC` (R226). Log entry 8. -/
  attached : Nat
  /-- What comes from outside next, oldest first. Log entry 3. -/
  hostMoves : List HostMove
  /-- The responses given, oldest first (R11). Log entry 4. -/
  respPort : List Response
  /-- What was driven onto the function ports, oldest first (R176, R177). Log entry 5. -/
  portLog : List PortEvent
  /-- The MODEL's own: how many free values were drawn. Log entry 6. -/
  draws : Nat
deriving DecidableEq, Repr

/-- Why a step stops. -/
inductive Fault where
  /-- Raised by `hostWrite` alone: the host writes an address that is not in `BUF` (R50: `0 <= a < BUF_SIZE`). Safe: the
  spec gives such a write no effect. Log entry 7. -/
  | hostOutsideBuf
deriving DecidableEq, Repr

/-- Why a step has no meaning. -/
inductive Refusal where
  /-- Raised by `exec` for a command without a meaning; no arm of the model does. Safe. -/
  | notModelled (mnemonic : String)
deriving DecidableEq, Repr

/-- The state after reset (R45): both valid bits 0, no byte of `BUF` with a value. The other registers hold no value in
the spec; the zeros here are the model's DESIGN CHOICE, log entry 1 (unsafe). -/
def State.reset : State where
  CC_VALID := false
  S := Vector.replicate 16 0
  KB := Vector.replicate 64 0
  OFF := 0
  ROUNDS := 0
  EAX_VALID := false
  TAGSIZE := 0
  CTR := List.replicate Config.sizes.B 0
  KS := List.replicate Config.sizes.B 0
  BUF := []
  attached := 0
  hostMoves := []
  respPort := []
  portLog := []
  draws := 0

end Sys2Proof.Machine
end

