-- ==== Sys2Proof/Machine/Codec.lean ====
section
/-! DEFINITION. The word codec (spec/40_chacha_engine.md R110 to R112) and the words of key and nonce
(spec/30_encoding.md R90). -/

namespace Sys2Proof.Machine

/-- `LE32` of the byte string `b0 b1 b2 b3` (R110). -/
def le32 (b0 b1 b2 b3 : Byte) : Word :=
  b0.setWidth 32 ||| (b1.setWidth 32 <<< 8) ||| (b2.setWidth 32 <<< 16) ||| (b3.setWidth 32 <<< 24)

/-- `LE32BYTES(w)` (R111). -/
def le32Bytes (w : Word) : Vector Byte 4 :=
  #v[w.setWidth 8, (w >>> 8).setWidth 8, (w >>> 16).setWidth 8, (w >>> 24).setWidth 8]

/-- `n` words from `4 n` bytes, word `i` from bytes `4 i .. 4 i + 3` (R90, R112). -/
def unpackWords {n : Nat} (b : Vector Byte (4 * n)) : Vector Word n :=
  Vector.ofFn fun i => le32 b[4 * i.val] b[4 * i.val + 1] b[4 * i.val + 2] b[4 * i.val + 3]

/-- `UNPACK64` (R112). -/
def unpack64 (b : Block) : ChaState := unpackWords (n := 16) b

/-- `PACK64` (R112): byte `p` is byte `p mod 4` of word `p div 4`. -/
def pack64 (x : ChaState) : Block :=
  Vector.ofFn fun p : Fin 64 => (le32Bytes x[p.val / 4])[p.val % 4]

/-- `KEY[0..7]` from the 32 key bytes (R90). -/
def keyWords (k : Vector Byte 32) : Vector Word 8 := unpackWords (n := 8) k

/-- `NONCE[0..2]` from the 12 nonce bytes (R90). -/
def nonceWords (v : Vector Byte 12) : Vector Word 3 := unpackWords (n := 3) v

end Sys2Proof.Machine
end

