-- ==== Sys2Proof/Machine/Engine.lean ====
section
/-! DEFINITION. The ChaCha round engine and state initialiser (spec/40_chacha_engine.md R113 to R123). The constants, the
quarter-round's steps and the index quadruples are those the spec prints and marks as general knowledge
(spec/93_implementation_defined.md G1 to G3): log entry 10. -/

namespace Sys2Proof.Machine

/-- `rotl32(w, n)`, `0 < n < 32` (R7). -/
def rotl32 (w : Word) (n : Nat) : Word := (w <<< n) ||| (w >>> (32 - n))

/-- `QR(a, b, c, d)`: the twelve steps in their order (R113). -/
def quarterRound (a b c d : Word) : Word × Word × Word × Word :=
  let a := a + b
  let d := rotl32 (d ^^^ a) 16
  let c := c + d
  let b := rotl32 (b ^^^ c) 12
  let a := a + b
  let d := rotl32 (d ^^^ a) 8
  let c := c + d
  let b := rotl32 (b ^^^ c) 7
  (a, b, c, d)

/-- `(x[i], x[j], x[k], x[l]) <- QR(x[i], x[j], x[k], x[l])` (R115). -/
def quarterRoundAt (x : ChaState) (q : Fin 16 × Fin 16 × Fin 16 × Fin 16) : ChaState :=
  let (i, j, k, l) := q
  let (a, b, c, d) := quarterRound x[i] x[j] x[k] x[l]
  (((x.set i a).set j b).set k c).set l d

/-- The four columns (R114). -/
def columns : List (Fin 16 × Fin 16 × Fin 16 × Fin 16) :=
  [(0, 4, 8, 12), (1, 5, 9, 13), (2, 6, 10, 14), (3, 7, 11, 15)]

/-- The four diagonals (R114). -/
def diagonals : List (Fin 16 × Fin 16 × Fin 16 × Fin 16) :=
  [(0, 5, 10, 15), (1, 6, 11, 12), (2, 7, 8, 13), (3, 4, 9, 14)]

/-- `DOUBLEROUND(x)`: the columns, then the diagonals (R115). -/
def doubleRound (x : ChaState) : ChaState := (columns ++ diagonals).foldl quarterRoundAt x

/-- `repeat n times: w <- DOUBLEROUND(w)` (R117). -/
def doubleRounds : Nat → ChaState → ChaState
  | 0, w => w
  | n + 1, w => doubleRounds n (doubleRound w)

/-- The keystream block of `CHACHA_BLOCK(X, rounds)`: `rounds / 2` double-rounds, then the feed-forward add with the
ORIGINAL state (R117). -/
def blockOf (x : ChaState) (rounds : Nat) : Block :=
  pack64 (Vector.zipWith (· + ·) (doubleRounds (rounds / 2) x) x)

/-- The side effect of `CHACHA_BLOCK`: `X[12] <- X[12] +32 1` (R117, R118). -/
def bumpCounter (x : ChaState) : ChaState := x.set 12 (x[12] + 1)

/-- `CHACHA_BLOCK(X, rounds)` (R117): the block, and the state with its counter advanced. -/
def chachaBlock (x : ChaState) (rounds : Nat) : Block × ChaState := (blockOf x rounds, bumpCounter x)

/-- `CHACHA_INIT(KEY, NONCE, counter)` (R120) with the constants of R121. -/
def chachaInit (key : Vector Word 8) (nonce : Vector Word 3) (counter : Word) : ChaState :=
  #v[0x61707865, 0x3320646e, 0x79622d32, 0x6b206574,
    key[0], key[1], key[2], key[3], key[4], key[5], key[6], key[7],
    counter, nonce[0], nonce[1], nonce[2]]

/-- `KSBLOCK(KEY, NONCE, c, rounds)` (R123). -/
def ksBlock (key : Vector Word 8) (nonce : Vector Word 3) (c : Word) (rounds : Nat) : Block :=
  blockOf (chachaInit key nonce c) rounds

/-- `KSTREAM(KEY, NONCE, c0, rounds)[p]` (R123). -/
def kstream (key : Vector Word 8) (nonce : Vector Word 3) (c0 : Word) (rounds p : Nat) : Byte :=
  (ksBlock key nonce (c0 + BitVec.ofNat 32 (p / 64)) rounds)[p % 64]'(Nat.mod_lt _ (by decide))

end Sys2Proof.Machine
end

