-- ==== Sys2Proof/Machine/Operands.lean ====
section
/-! DEFINITION. Operands: the signed fields (spec/30_encoding.md R91), the range, overlap and capacity rules
(spec/20_memory.md R56 to R58). -/

namespace Sys2Proof.Machine

/-- `rounds = sext_32(ROUNDS)` (R91). -/
def roundsOf (w : Word) : Int := w.toInt

/-- `tagSize = sext_32(TAGSIZE_ARG)` (R91). -/
def tagSizeOf (w : Word) : Int := w.toInt

/-- `inrange(a, l)` (R56), on natural numbers. -/
def inrange (P : Params) (a l : Nat) : Bool := decide (a + l ≤ P.BUF_SIZE)

/-- `inrange` of an operand as the descriptor gives it: a destination with its capacity (R56). -/
def regionInrange (P : Params) (r : Region) : Bool := Machine.inrange P r.a r.n

/-- `overlap((a, la), (b, lb))` (R57). -/
def overlap (a la b lb : Nat) : Bool := decide (0 < la ∧ 0 < lb ∧ a < b + lb ∧ b < a + la)

/-- The extent of `n` bytes at `dst` against the text range: overlap is allowed exactly in place (R57). -/
def aliasText (dst n : Nat) (text : Region) : Bool := decide (dst ≠ text.a) && overlap dst n text.a text.n

/-- The extent of `n` bytes at `dst` against the nonce or the associated data: no overlap at all (R57). -/
def aliasOther (dst n : Nat) (other : Region) : Bool := overlap dst n other.a other.n

end Sys2Proof.Machine
end

