-- ==== Sys2Proof/Machine/Ops.lean ====
section
/-! DEFINITION. The named operations over memory and ports: `MemRead` and `MemWrite` (spec/00_scope.md R8), responses
(R11, R95), and the failure of a command, which is this machine's exception (spec/60_exceptions.md R190, R196, R197). -/

namespace Sys2Proof.Machine

/-- The parameters a command runs with: those of the functions attached when it starts (R226). -/
def State.params (s : State) : Params := Config.params s.attached

/-- The canonical form of memory: addresses strictly rising. An unlisted address holds no value, so no entry repeats
what an unlisted address reads as. -/
abbrev Memory.wf (m : Memory) : Prop := m.Pairwise fun x y => x.1 < y.1

/-- The byte at an address, `none` where it holds no value (R45). -/
def Memory.get? : Memory → Nat → Option Byte
  | [], _ => none
  | (b, v) :: m, a => if a = b then some v else Memory.get? m a

/-- `BUF[a] <- v`, keeping the canonical form. -/
def Memory.set : Memory → Nat → Byte → Memory
  | [], a, v => [(a, v)]
  | (b, w) :: m, a, v =>
    if a < b then (a, v) :: (b, w) :: m
    else if a = b then (a, v) :: m
    else (b, w) :: Memory.set m a v

/-- `MemWrite(a, len(bs), bs)` (R8). -/
def Memory.writeBytes : Memory → Nat → List Byte → Memory
  | m, _, [] => m
  | m, a, v :: bs => (m.set a v).writeBytes (a + 1) bs

/-- One byte as a command reads it: a byte that holds no value is a free draw (R46), number `d`. Log entry 2. -/
def Memory.readByte (m : Memory) (d a : Nat) : Byte := (m.get? a).getD (Config.freeByte d a)

/-- `MemRead(a, n)` (R8), by a command whose draw number is `d`. -/
def Memory.readBytes (m : Memory) (d : Nat) : (a n : Nat) → List Byte
  | _, 0 => []
  | a, n + 1 => m.readByte d a :: m.readBytes d (a + 1) n

/-- `MemWrite(dst, n, MemRead(src, n) ^ ks[0..n))`: one chunk of every XOR loop (R60: the chunk's source is read before
its destination is written). -/
def Memory.xorInto (m : Memory) (d dst src n : Nat) (ks : List Byte) : Memory :=
  m.writeBytes dst (xorBytes (m.readBytes d src n) ks)

/-- The status codes of R190. -/
def Status.code : Status → Byte
  | .ok => 0x00
  | .invalidParam => 0x01
  | .authFail => 0x02
  | .unsupportedCipher => 0x03
  | .illegalCmd => 0x10
  | .noContext => 0x11
  | .badAddress => 0x12
  | .badAlias => 0x13

/-- A byte string packed little-endian into words, the unused high bytes of the last word zero (R95). -/
def packTag : List Byte → List Word
  | b0 :: b1 :: b2 :: b3 :: rest =>
    (b0.setWidth 32 ||| (b1.setWidth 32 <<< 8) ||| (b2.setWidth 32 <<< 16) ||| (b3.setWidth 32 <<< 24)) :: packTag rest
  | [b0, b1, b2] => [b0.setWidth 32 ||| (b1.setWidth 32 <<< 8) ||| (b2.setWidth 32 <<< 16)]
  | [b0, b1] => [b0.setWidth 32 ||| (b1.setWidth 32 <<< 8)]
  | [b0] => [b0.setWidth 32]
  | [] => []

/-- A response as the words of its frame (R95). -/
def Response.words (r : Response) : List Word :=
  [r.status.code.setWidth 32, r.value, BitVec.ofNat 32 r.tag.length] ++ packTag r.tag

/-- The command ends with this response (R8 `return`, R11). -/
def State.respond (s : State) (st : Status) (value : Word) (tag : List Byte) : State :=
  { s with respPort := s.respPort ++ [⟨st, value, tag⟩] }

/-- `raise ST_x` (R8, R196): the response `(ST_x, 0, empty)` and nothing else. The CORE's way of taking an exception;
there is nothing to save and nothing to return from (R196, R199). -/
def State.raise (s : State) (st : Status) : State := s.respond st 0 []

/-- The checks of a command in the order of R197, each the condition under which it fails: the first that fails. -/
def firstFailure : List (Bool × Status) → Option Status
  | [] => none
  | (fails, st) :: rest => if fails then some st else firstFailure rest

/-- A command with its entry checks: it raises the first failure, or has its effect (R196: every check before every
write). -/
def State.guarded (s : State) (failure : Option Status) (effect : State) : State :=
  match failure with
  | some st => s.raise st
  | none => effect

/-- What the host sees when it reads `n` bytes at `a` between commands (R64): a range that is not in `BUF` does not
exist (R50), and a byte may hold no value. Reading changes nothing (R59). -/
def State.hostRead (P : Sizes) (s : State) (a n : Nat) : Option (List (Option Byte)) :=
  if a + n ≤ P.BUF_SIZE then some ((List.range n).map fun i => s.BUF.get? (a + i)) else none

end Sys2Proof.Machine
end

