-- ==== Sys2Proof/Machine/Flags.lean ====
section
/-! DEFINITION. The only flags are `CC_VALID` and `EAX_VALID`, and no command computes a condition code
(spec/10_state.md R41). What stands here is what the commands test: their entry checks in the order of
spec/60_exceptions.md R197, each list written as the pseudocode of the command's rule. -/

namespace Sys2Proof.Machine

/-- A valid round count: `rounds > 0` and `rounds mod 2 = 0` (R116). -/
def roundsValid (w : Word) : Bool := decide (0 < roundsOf w ∧ roundsOf w % 2 = 0)

/-- `CC_XOR` (R130). -/
def ccXorFailure (P : Params) (rounds : Word) (dst src : Region) : Option Status :=
  firstFailure [
    (decide (dst.n < src.n), .invalidParam),
    (!roundsValid rounds, .invalidParam),
    (!(regionInrange P dst && regionInrange P src), .badAddress),
    (aliasText dst.a src.n src, .badAlias)]

/-- `CC_NEW` (R132). -/
def ccNewFailure (rounds : Word) : Option Status :=
  firstFailure [(!roundsValid rounds, .invalidParam)]

/-- `CC_STREAM` (R133). -/
def ccStreamFailure (P : Params) (dst src : Region) (s : State) : Option Status :=
  firstFailure [
    (!s.CC_VALID, .noContext),
    (decide (dst.n < src.n), .invalidParam),
    (!(regionInrange P dst && regionInrange P src), .badAddress),
    (aliasText dst.a src.n src, .badAlias)]

/-- `EAX_NEW` (R161). -/
def eaxNewFailure (P : Params) (tagSize : Word) : Option Status :=
  firstFailure [
    (!P.MAC_SUPPORTED, .unsupportedCipher),
    (decide (tagSizeOf tagSize < 1 ∨ (P.B : Int) < tagSizeOf tagSize), .invalidParam)]

/-- `EAX_NONCESIZE` and `EAX_OVERHEAD` (R162, R163). -/
def eaxQueryFailure (s : State) : Option Status :=
  firstFailure [(!s.EAX_VALID, .noContext)]

/-- `EAX_SEAL` (R164). -/
def eaxSealFailure (P : Params) (dst nonce text ad : Region) (s : State) : Option Status :=
  firstFailure [
    (!s.EAX_VALID, .noContext),
    (decide (nonce.n ≠ P.B), .invalidParam),
    (decide (dst.n < text.n), .invalidParam),
    (!(regionInrange P dst && regionInrange P nonce && regionInrange P text && regionInrange P ad), .badAddress),
    (aliasOther dst.a text.n nonce || aliasOther dst.a text.n ad || aliasText dst.a text.n text, .badAlias)]

/-- `EAX_OPEN` up to the tag comparison (R165); the body length is `TEXT_LEN - TAGSIZE`, read only where
`TEXT_LEN >= TAGSIZE`. -/
def eaxOpenFailure (P : Params) (dst nonce text ad : Region) (s : State) : Option Status :=
  let n := text.n - s.TAGSIZE
  firstFailure [
    (!s.EAX_VALID, .noContext),
    (decide (nonce.n ≠ P.B), .invalidParam),
    (decide (text.n < s.TAGSIZE), .authFail),
    (decide (dst.n < n), .invalidParam),
    (!(regionInrange P dst && regionInrange P nonce && regionInrange P text && regionInrange P ad), .badAddress),
    (aliasOther dst.a n nonce || aliasOther dst.a n ad || aliasText dst.a n text, .badAlias)]

end Sys2Proof.Machine
end

