-- ==== Sys2Proof/Machine/ChaCha.lean ====
section
/-! DEFINITION. The ChaCha keystream XOR commands (spec/41_chacha_xor.md): `CC_XOR`, `CC_NEW`, `CC_STREAM`. Each has its
effect over any parameters `P`, and its meaning at those of the state. -/

namespace Sys2Proof.Machine

/-- The loop over `q` full 64-byte chunks (R130, R133 step 2): each block is XOR-ed in directly and advances the
counter of `x`. -/
def xorBlocks (d rounds : Nat) : (q dst src : Nat) → ChaState → Memory → ChaState × Memory
  | 0, _, _, x, m => (x, m)
  | q + 1, dst, src, x, m =>
    let (kb, x) := chachaBlock x rounds
    xorBlocks d rounds q (dst + 64) (src + 64) x (m.xorInto d dst src 64 kb.toList)

/-- The bytes `CC_XOR` writes (R130): the full chunks, then the needed part of one more block when a remainder is left. -/
def ccXorMem (d : Nat) (rounds : Nat) (x : ChaState) (dst src n : Nat) (m : Memory) : Memory :=
  let i := 64 * (n / 64)
  let r := n % 64
  let (x, m) := xorBlocks d rounds (n / 64) dst src x m
  if 0 < r then m.xorInto d (dst + i) (src + i) r (chachaBlock x rounds).1.toList else m

/-- `CC_XOR` (R130). Its ChaCha state is a temporary (R28). -/
def ccXor (P : Params) (rounds counter : Word) (key : Vector Word 8) (nonce : Vector Word 3) (dst src : Region)
    (s : State) : State :=
  s.guarded (ccXorFailure P rounds dst src)
    ({ s with
        BUF := ccXorMem s.draws (roundsOf rounds).toNat (chachaInit key nonce counter) dst.a src.a src.n s.BUF
        draws := s.draws + 1 }.respond .ok src.len [])

/-- `CC_NEW` (R132). `KB` is not written. -/
def ccNew (rounds : Word) (key : Vector Word 8) (nonce : Vector Word 3) (s : State) : State :=
  s.guarded (ccNewFailure rounds)
    ({ s with
        S := chachaInit key nonce 0
        ROUNDS := (roundsOf rounds).toNat
        OFF := 0
        CC_VALID := true }.respond .ok 0 [])

/-- Step 1 of `CC_STREAM` (R133): consume leftover bytes. -/
def streamLeftover (dst src n : Nat) (s : State) : State :=
  if s.OFF.val ≠ 0 then
    let m := min (64 - s.OFF.val) n
    { s with
      BUF := s.BUF.xorInto s.draws dst src m (s.KB.toList.drop s.OFF.val)
      OFF := Fin.ofNat 64 (s.OFF.val + m) }
  else s

/-- How many bytes step 1 of `CC_STREAM` processes. -/
def leftoverLen (n : Nat) (s : State) : Nat := if s.OFF.val ≠ 0 then min (64 - s.OFF.val) n else 0

/-- Step 2 of `CC_STREAM` (R133): full blocks, XOR-ed directly, `KB` not written. -/
def streamBlocks (dst src n : Nat) (s : State) : State :=
  let (x, m) := xorBlocks s.draws s.ROUNDS (n / 64) dst src s.S s.BUF
  { s with S := x, BUF := m }

/-- Step 3 of `CC_STREAM` (R133): a final remainder of `r` bytes takes the first bytes of a new leftover block. -/
def streamFinal (dst src r : Nat) (s : State) : State :=
  if 0 < r then
    let (kb, x) := chachaBlock s.S s.ROUNDS
    { s with
      S := x
      KB := kb
      BUF := s.BUF.xorInto s.draws dst src r kb.toList
      OFF := Fin.ofNat 64 r }
  else s

/-- The three steps of `CC_STREAM` over `n` bytes (R133). -/
def streamXor (dst src n : Nat) (s : State) : State :=
  let i := leftoverLen n s
  let s := streamLeftover dst src n s
  let s := streamBlocks (dst + i) (src + i) (n - i) s
  let j := i + 64 * ((n - i) / 64)
  streamFinal (dst + j) (src + j) (n - j) s

/-- `CC_STREAM` (R133). -/
def ccStream (P : Params) (dst src : Region) (s : State) : State :=
  s.guarded (ccStreamFailure P dst src s)
    ({ streamXor dst.a src.a src.n s with draws := s.draws + 1 }.respond .ok src.len [])

/-- The meaning of `CC_XOR`. -/
def execCcXor (rounds counter : Word) (key : Vector Word 8) (nonce : Vector Word 3) (dst src : Region) (s : State) :
    Host.Outcome State Fault Refusal :=
  .next (ccXor s.params rounds counter key nonce dst src s)

/-- The meaning of `CC_NEW`. -/
def execCcNew (rounds : Word) (key : Vector Word 8) (nonce : Vector Word 3) (s : State) :
    Host.Outcome State Fault Refusal :=
  .next (ccNew rounds key nonce s)

/-- The meaning of `CC_STREAM`. -/
def execCcStream (dst src : Region) (s : State) : Host.Outcome State Fault Refusal :=
  .next (ccStream s.params dst src s)

end Sys2Proof.Machine
end

