-- ==== Sys2Proof/Machine/Counter.lean ====
section
/-! DEFINITION. The counter-mode encryption core (spec/42_ctr_core.md): `CTR_INC` and `CTR_XOR`. -/

namespace Sys2Proof.Machine

/-- The carry loop of `CTR_INC` on the register's bytes from the last leftward: it stops at the first byte that does not
wrap to zero (R150). -/
def incFromLast : List Byte → List Byte
  | [] => []
  | b :: rest => if b + 1 ≠ 0 then (b + 1) :: rest else (b + 1) :: incFromLast rest

/-- `CTR_INC` (R150). -/
def ctrInc (ctr : List Byte) : List Byte := (incFromLast ctr.reverse).reverse

/-- What `CTR_XOR` works on: the two registers, the memory, and the calls of `E`. -/
structure CtrRun where
  ctr : List Byte
  ks : List Byte
  mem : Memory
  log : List PortEvent
deriving DecidableEq, Repr

/-- The loop of `CTR_XOR` (R151) over `chunks` chunks with `n` bytes left: each chunk takes a keystream block from `E`,
and the register is incremented after every chunk, full or partial. -/
def ctrChunks (P : Params) (d : Nat) : (chunks dst src n : Nat) → CtrRun → CtrRun
  | 0, _, _, _, r => r
  | c + 1, dst, src, n, r =>
    let ks := P.E r.ctr
    let m := min P.B n
    ctrChunks P d c (dst + m) (src + m) (n - m)
      ⟨ctrInc r.ctr, ks, r.mem.xorInto d dst src m ks, r.log ++ [.encrypt r.ctr]⟩

/-- `ceil(n / B)`, the number of chunks (R151). -/
def chunkCount (P : Params) (n : Nat) : Nat := (n + P.B - 1) / P.B

/-- `CTR_XOR(dst, src, n)` (R151) on the registers and memory of `s`, by a command whose draw number is `d`. -/
def ctrXor (P : Params) (dst src n : Nat) (s : State) : State :=
  let r := ctrChunks P s.draws (chunkCount P n) dst src n ⟨s.CTR, s.KS, s.BUF, s.portLog⟩
  { s with CTR := r.ctr, KS := r.ks, BUF := r.mem, portLog := r.log }

end Sys2Proof.Machine
end

