-- ==== Sys2Proof/Machine/Eax.lean ====
section
/-! DEFINITION. The EAX commands (spec/43_eax.md): `EAX_NEW`, `EAX_NONCESIZE`, `EAX_OVERHEAD`, `EAX_SEAL`, `EAX_OPEN`,
and the domain-separated MAC and tag they are built on (R170 to R173, R176). -/

namespace Sys2Proof.Machine

/-- `PREFIX(t)` (R170): `zeros(B - 1)` and the domain tag. -/
def domainPrefix (P : Params) (t : Byte) : List Byte := List.replicate (P.B - 1) 0 ++ [t]

/-- `OMAC_T(t, payload)` (R171). -/
def omac (P : Params) (t : Byte) (payload : List Byte) : List Byte := P.MAC (domainPrefix P t ++ payload)

/-- The MAC port protocol of one `OMAC_T` (R176); the payload goes in one piece, and an empty one is not written. -/
def omacEvents (P : Params) (t : Byte) (payload : List Byte) : List PortEvent :=
  [.macReset, .macWrite (domainPrefix P t)] ++ (if payload = [] then [] else [.macWrite payload]) ++ [.macReadSum]

/-- `EAX_TAG(N, H, C)` (R172): the first `tagSize` bytes of the XOR. -/
def eaxTag (tagSize : Nat) (n h c : List Byte) : List Byte := (xorBytes (xorBytes n h) c).take tagSize

/-- `EAX_NEW` (R161). `CTR` and `KS` hold no value afterwards: each is `B` free bytes. Log entry 6. -/
def eaxNew (P : Params) (tagSize : Word) (s : State) : State :=
  s.guarded (eaxNewFailure P tagSize)
    ({ s with
        TAGSIZE := (tagSizeOf tagSize).toNat
        CTR := (List.range P.B).map (Config.freeByte s.draws)
        KS := (List.range P.B).map (Config.freeByte (s.draws + 1))
        EAX_VALID := true
        draws := s.draws + 2 }.respond .ok 0 [])

/-- The `VALUE` of `EAX_NONCESIZE`: `B` (R162), as a word (R95). No result is stated for a `B` that no word holds. Log
entry 9. -/
def nonceSizeValue (P : Params) : Word :=
  if P.B < 2 ^ 32 then BitVec.ofNat 32 P.B else Config.wideNonceSize P.B

/-- `EAX_NONCESIZE` (R162). -/
def eaxNonceSize (P : Params) (s : State) : State :=
  s.guarded (eaxQueryFailure s) (s.respond .ok (nonceSizeValue P) [])

/-- `EAX_OVERHEAD` (R163). -/
def eaxOverhead (s : State) : State :=
  s.guarded (eaxQueryFailure s) (s.respond .ok (BitVec.ofNat 32 s.TAGSIZE) [])

/-- A byte string operand as the command reads it: `MemRead` of the whole range. -/
def State.operand (s : State) (r : Region) : List Byte := s.BUF.readBytes s.draws r.a r.n

/-- `authNonce` (R171): of the nonce operand. -/
def authNonce (P : Params) (nonce : Region) (s : State) : List Byte := omac P 0x00 (s.operand nonce)

/-- `authData` (R171): of the associated data. -/
def authData (P : Params) (ad : Region) (s : State) : List Byte := omac P 0x01 (s.operand ad)

/-- Steps 1 to 3 of `EAX_SEAL` (R164), and the decryption of `EAX_OPEN` (R165): seed `CTR`, then `CTR_XOR`. -/
def seedAndXor (P : Params) (seed : List Byte) (dst src n : Nat) (s : State) : State :=
  ctrXor P dst src n { s with CTR := seed }

/-- What `EAX_SEAL` does past its checks (R164). -/
def sealEffect (P : Params) (dst nonce text ad : Region) (s : State) : State :=
  let n := text.n
  let aN := authNonce P nonce s
  let aD := authData P ad s
  let log := s.portLog ++ omacEvents P 0x00 (s.operand nonce) ++ omacEvents P 0x01 (s.operand ad)
  let t := seedAndXor P aN dst.a text.a n { s with portLog := log }
  let ciphertext := t.BUF.readBytes s.draws dst.a n
  let aC := omac P 0x02 ciphertext
  { t with
    portLog := t.portLog ++ omacEvents P 0x02 ciphertext
    draws := s.draws + 1 }.respond .ok text.len (eaxTag s.TAGSIZE aN aD aC)

/-- `EAX_SEAL` (R164). -/
def eaxSeal (P : Params) (dst nonce text ad : Region) (s : State) : State :=
  s.guarded (eaxSealFailure P dst nonce text ad s) (sealEffect P dst nonce text ad s)

/-- The body of the sealed message of `EAX_OPEN` (R165). -/
def openBody (text : Region) (s : State) : List Byte := s.BUF.readBytes s.draws text.a (text.n - s.TAGSIZE)

/-- The received tag of `EAX_OPEN` (R165). -/
def receivedTag (text : Region) (s : State) : List Byte :=
  s.BUF.readBytes s.draws (text.a + (text.n - s.TAGSIZE)) s.TAGSIZE

/-- The expected tag of `EAX_OPEN` (R165), over the body, not the tag. -/
def expectedTag (P : Params) (nonce text ad : Region) (s : State) : List Byte :=
  eaxTag s.TAGSIZE (authNonce P nonce s) (authData P ad s) (omac P 0x02 (openBody text s))

/-- What `EAX_OPEN` does past its entry checks (R165): the three MAC evaluations, the comparison (R173: equality), and
only on a match the decryption. On a mismatch nothing is written and `E` is not called; only the number of free values
drawn goes on, as after every command that read `BUF`. -/
def openEffect (P : Params) (dst nonce text ad : Region) (s : State) : State :=
  let n := text.n - s.TAGSIZE
  let log := s.portLog ++ omacEvents P 0x00 (s.operand nonce) ++ omacEvents P 0x01 (s.operand ad) ++
    omacEvents P 0x02 (openBody text s)
  if expectedTag P nonce text ad s ≠ receivedTag text s then
    { s with portLog := log, draws := s.draws + 1 }.raise .authFail
  else
    { seedAndXor P (authNonce P nonce s) dst.a text.a n { s with portLog := log } with
      draws := s.draws + 1 }.respond .ok (BitVec.ofNat 32 n) []

/-- `EAX_OPEN` (R165). -/
def eaxOpen (P : Params) (dst nonce text ad : Region) (s : State) : State :=
  s.guarded (eaxOpenFailure P dst nonce text ad s) (openEffect P dst nonce text ad s)

/-- The meaning of `EAX_NEW`. -/
def execEaxNew (tagSize : Word) (s : State) : Host.Outcome State Fault Refusal :=
  .next (eaxNew s.params tagSize s)

/-- The meaning of `EAX_NONCESIZE`. -/
def execEaxNonceSize (s : State) : Host.Outcome State Fault Refusal := .next (eaxNonceSize s.params s)

/-- The meaning of `EAX_OVERHEAD`. -/
def execEaxOverhead (s : State) : Host.Outcome State Fault Refusal := .next (eaxOverhead s)

/-- The meaning of `EAX_SEAL`. -/
def execEaxSeal (dst nonce text ad : Region) (s : State) : Host.Outcome State Fault Refusal :=
  .next (eaxSeal s.params dst nonce text ad s)

/-- The meaning of `EAX_OPEN`. -/
def execEaxOpen (dst nonce text ad : Region) (s : State) : Host.Outcome State Fault Refusal :=
  .next (eaxOpen s.params dst nonce text ad s)

end Sys2Proof.Machine
end

