-- ==== Sys2Proof/Machine/Dispatch.lean ====
section
/-! DEFINITION. One arm per command (spec/30_encoding.md R80). -/

namespace Sys2Proof.Machine

/-- The meaning of a legal descriptor (R94, R197: after the decoder's check). -/
def exec (i : Instr) (s : State) : Host.Outcome State Fault Refusal :=
  match i with
  | .ccXor rounds counter key nonce dst src => Sys2Proof.Machine.execCcXor rounds counter key nonce dst src s
  | .ccNew rounds key nonce => Sys2Proof.Machine.execCcNew rounds key nonce s
  | .ccStream dst src => Sys2Proof.Machine.execCcStream dst src s
  | .eaxNew tagSize => Sys2Proof.Machine.execEaxNew tagSize s
  | .eaxNonceSize => Sys2Proof.Machine.execEaxNonceSize s
  | .eaxOverhead => Sys2Proof.Machine.execEaxOverhead s
  | .eaxSeal dst nonce text ad => Sys2Proof.Machine.execEaxSeal dst nonce text ad s
  | .eaxOpen dst nonce text ad => Sys2Proof.Machine.execEaxOpen dst nonce text ad s

end Sys2Proof.Machine
end

