-- ==== Sys2Proof/Machine/Port.lean ====
section
/-! DEFINITION. What the CORE does with each move from outside: a descriptor on the command port (spec/30_encoding.md R93,
R94), a host write of `BUF` (spec/20_memory.md R64), the reset event and a re-keyed block cipher (spec/70_reset_and_hazards.md R220, R226). -/

namespace Sys2Proof.Machine

/-- One descriptor, sampled whole (R66): an illegal one is answered `ST_ILLEGAL_CMD` and changes nothing (R93, R194); a
legal one runs its command. -/
def answer (ws : Descriptor) (s : State) : Host.Outcome State Fault Refusal :=
  match decode ws with
  | .illegal _ => .next (s.raise .illegalCmd)
  | .command i => exec i s

/-- The host writes bytes of `BUF` between two commands (R64); an address outside `BUF` does not exist (R50). -/
def hostWrite (P : Sizes) (a : Nat) (bytes : List Byte) (s : State) : Host.Outcome State Fault Refusal :=
  if a + bytes.length ≤ P.BUF_SIZE then .next { s with BUF := s.BUF.writeBytes a bytes }
  else .fault .hostOutsideBuf

/-- The reset event (R220): the reset state of R45. What passed over the ports before, and the host's coming moves, are
not state of the CORE and stay, and the attached functions are not affected; a new draw number keeps what held no value before apart from what holds none now. -/
def resetEvent (s : State) : State :=
  { State.reset with
    attached := s.attached
    hostMoves := s.hostMoves
    respPort := s.respPort
    portLog := s.portLog
    draws := s.draws + 1 }

/-- The integrator attaches the functions numbered `key` (R226). No register and no byte changes, and every later command
follows its rules with the new functions. -/
def rekey (key : Nat) (s : State) : State := { s with attached := key }

/-- One move from outside, with the state in which it is no longer to come. -/
def takeMove (m : HostMove) (s : State) : Host.Outcome State Fault Refusal :=
  match m with
  | .issue ws => answer ws s
  | .write a bytes => hostWrite Config.sizes a bytes s
  | .reset => .next (resetEvent s)
  | .rekey key => .next (rekey key s)

/-- One step: the oldest move from outside (R63: moves and commands are one interleaving, each whole). With no move to
come the CORE waits and nothing changes (R10, R40). Log entry 3. -/
def stepCore (s : State) : Host.Outcome State Fault Refusal :=
  match s.hostMoves with
  | [] => .next s
  | m :: rest => takeMove m { s with hostMoves := rest }

/-- `s` with a descriptor put on the command port, to be taken next. -/
def State.withDescriptor (s : State) (ws : Descriptor) : State := { s with hostMoves := .issue ws :: s.hostMoves }

end Sys2Proof.Machine
end

