-- ==== Sys2Proof/Machine/Step.lean ====
section
/-! DEFINITION. The step of the machine. -/

namespace Sys2Proof.Machine

/-- One step (Machine/Port.lean). -/
def step (s : State) : Host.Outcome State Fault Refusal := stepCore s

/-- `s` with the descriptor whose bits are `w` on the command port, so that the next step takes it. -/
def State.withFetchWord (s : State) (nbits w : Nat) : State := s.withDescriptor (tableDescriptor nbits w)

end Sys2Proof.Machine
end

