-- ==== Sys2Proof/Machine/Assembler.lean ====
section
/-! DEFINITION. The textual form of a command (spec/30_encoding.md R97): one line is one command, its operands
`name=value` in descriptor order. Structural recursion on the characters throughout. -/

namespace Sys2Proof.Machine

/-- The pieces of a text between the separators. -/
def splitText (sep : Char) : List Char → List (List Char)
  | [] => [[]]
  | c :: cs =>
    if c = sep then [] :: splitText sep cs
    else match splitText sep cs with
      | [] => [[c]]
      | piece :: pieces => (c :: piece) :: pieces

/-- Blanks between words; a command broken over two lines is one line. -/
def isBlank (c : Char) : Bool := c = ' ' || c = '\t' || c = '\n'

/-- The value of a hexadecimal digit. -/
def hexDigit (c : Char) : Option Nat :=
  if '0' ≤ c ∧ c ≤ '9' then some (c.toNat - 48)
  else if 'a' ≤ c ∧ c ≤ 'f' then some (c.toNat - 87)
  else if 'A' ≤ c ∧ c ≤ 'F' then some (c.toNat - 55)
  else none

/-- Digits in a base, the most significant first, after the value `acc` of those before them. -/
def digitsValue (base : Nat) : (acc : Nat) → List Char → Option Nat
  | acc, [] => some acc
  | acc, c :: cs =>
    match hexDigit c with
    | some d => if d < base then digitsValue base (base * acc + d) cs else none
    | none => none

/-- A decimal or `0x` hexadecimal integer without a sign. -/
def parseNat : List Char → Option Nat
  | [] => none
  | '0' :: 'x' :: c :: cs => digitsValue 16 0 (c :: cs)
  | cs => digitsValue 10 0 cs

/-- An unsigned field (R83). -/
def parseWord (t : List Char) : Option Word :=
  (parseNat t).bind fun n => if n < 2 ^ 32 then some (BitVec.ofNat 32 n) else none

/-- A signed field: `rounds` and `tagsize` may carry a minus sign. -/
def parseSigned : List Char → Option Word
  | '-' :: cs => (parseNat cs).bind fun n => if n ≤ 2 ^ 31 then some (BitVec.ofInt 32 (-n)) else none
  | cs => (parseNat cs).bind fun n => if n < 2 ^ 31 then some (BitVec.ofNat 32 n) else none

/-- Bytes in their natural order, two hexadecimal digits each. -/
def hexBytes : List Char → Option (List Byte)
  | [] => some []
  | h :: l :: cs =>
    match hexDigit h, hexDigit l, hexBytes cs with
    | some x, some y, some rest => some (BitVec.ofNat 8 (16 * x + y) :: rest)
    | _, _, _ => none
  | _ => none

/-- Exactly `n` bytes of hexadecimal digits. -/
def parseBytes (n : Nat) (t : List Char) : Option (Vector Byte n) :=
  (hexBytes t).bind fun bs => if h : bs.length = n then some ⟨bs.toArray, by simpa using h⟩ else none

/-- A range, written `addr:len`. -/
def parseRegion (t : List Char) : Option Region :=
  match splitText ':' t with
  | [a, l] =>
    match parseWord a, parseWord l with
    | some addr, some len => some ⟨addr, len⟩
    | _, _ => none
  | _ => none

/-- The value of the operand `name=value`. -/
def operandText (name : String) (t : List Char) : Option (List Char) :=
  match splitText '=' t with
  | [n, v] => if n = name.toList then some v else none
  | _ => none

/-- `key=`: 64 digits, the bytes in natural order (R90 makes them words). -/
def parseKey (t : List Char) : Option (Vector Word 8) :=
  ((operandText "key" t).bind (parseBytes 32)).map keyWords

/-- `nonce=` of the `cc.` commands: 24 digits. -/
def parseNonce (t : List Char) : Option (Vector Word 3) :=
  ((operandText "nonce" t).bind (parseBytes 12)).map nonceWords

/-- A range operand under its name. -/
def parseRange (name : String) (t : List Char) : Option Region := (operandText name t).bind parseRegion

/-- A signed operand under its name. -/
def parseInt (name : String) (t : List Char) : Option Word := (operandText name t).bind parseSigned

/-- The command of a mnemonic and its operands' texts. -/
def assembleParts (mnemonic : List Char) (ops : List (List Char)) : Option Instr :=
  if mnemonic = "cc.xor".toList then
    match ops with
    | [r, c, k, v, d, s] => do
      return .ccXor (← parseInt "rounds" r) (← (operandText "counter" c).bind parseWord) (← parseKey k) (← parseNonce v)
        (← parseRange "dst" d) (← parseRange "src" s)
    | _ => none
  else if mnemonic = "cc.new".toList then
    match ops with
    | [r, k, v] => do return .ccNew (← parseInt "rounds" r) (← parseKey k) (← parseNonce v)
    | _ => none
  else if mnemonic = "cc.stream".toList then
    match ops with
    | [d, s] => do return .ccStream (← parseRange "dst" d) (← parseRange "src" s)
    | _ => none
  else if mnemonic = "eax.new".toList then
    match ops with
    | [t] => do return .eaxNew (← parseInt "tagsize" t)
    | _ => none
  else if mnemonic = "eax.noncesize".toList then
    match ops with
    | [] => some .eaxNonceSize
    | _ => none
  else if mnemonic = "eax.overhead".toList then
    match ops with
    | [] => some .eaxOverhead
    | _ => none
  else if mnemonic = "eax.seal".toList then
    match ops with
    | [d, n, t, a] => do
      return .eaxSeal (← parseRange "dst" d) (← parseRange "nonce" n) (← parseRange "pt" t) (← parseRange "ad" a)
    | _ => none
  else if mnemonic = "eax.open".toList then
    match ops with
    | [d, n, t, a] => do
      return .eaxOpen (← parseRange "dst" d) (← parseRange "nonce" n) (← parseRange "ct" t) (← parseRange "ad" a)
    | _ => none
  else none

/-- One line of text as a command (R97); a comment starts with `;`. Not a command: `none`. -/
def assemble (line : List Char) : Option Instr :=
  let code := (line.takeWhile (· ≠ ';')).dropWhile isBlank
  let ops := (code.dropWhile (!isBlank ·)).filter (!isBlank ·)
  assembleParts (code.takeWhile (!isBlank ·)) (if ops = [] then [] else splitText ',' ops)

end Sys2Proof.Machine
end

