-- ==== Sys2Proof/WellFormed.lean ====
section
/-! DEFINITION. Which descriptors are legal: spec/30_encoding.md R93, clause by clause. An `Instr` needs no check of its
own: its types hold exactly the operand values R93 admits, every 32-bit value in every field. The decoder of
Sys2Proof/Decode.lean is written on its own; that it accepts exactly these descriptors is stated, not built in. -/

namespace Sys2Proof

/-- The word count of the format an opcode selects (R84 to R89, R92); `none` for an opcode that is not one of the eight. -/
def formatWords (opc : Nat) : Option Nat :=
  match opc with
  | 0x01 => some 18
  | 0x02 => some 13
  | 0x03 => some 5
  | 0x10 => some 2
  | 0x11 => some 1
  | 0x12 => some 1
  | 0x13 => some 9
  | 0x14 => some 9
  | _ => none

/-- Not illegal by `k = 0`. -/
def Descriptor.hasHeader (ws : Descriptor) : Bool := !ws.isEmpty

/-- Not illegal by `W[0][31:8] != 0`. -/
def Descriptor.reservedZero (ws : Descriptor) : Bool := (ws.headD 0).toNat / 256 == 0

/-- Not illegal by an unused opcode. -/
def Descriptor.opcodeUsed (ws : Descriptor) : Bool := (formatWords ((ws.headD 0).toNat % 256)).isSome

/-- Not illegal by a word count that differs from the format's. -/
def Descriptor.countMatches (ws : Descriptor) : Bool :=
  formatWords ((ws.headD 0).toNat % 256) == some ws.length

/-- A descriptor that R93 does not call illegal. -/
def Descriptor.wellFormed (ws : Descriptor) : Bool :=
  ws.hasHeader && ws.reservedZero && ws.opcodeUsed && ws.countMatches

end Sys2Proof
end

