-- ==== Sys2Proof/Safety.lean ====
section
/-! DEFINITION. The terms in which claims about the CORE are stated: the commands at any parameters, when a command is
accepted, what it leaves unchanged, and the invariants. -/

namespace Sys2Proof.Machine

/-- The state after command `i` at the parameters `P`: every rule holds for every admitted value of the parameters
(spec/00_scope.md R5). `exec i s` is this at `s.params`, those of the functions attached in `s` (R226). -/
def runAt (P : Params) (i : Instr) (s : State) : State :=
  match i with
  | .ccXor rounds counter key nonce dst src => ccXor P rounds counter key nonce dst src s
  | .ccNew rounds key nonce => ccNew rounds key nonce s
  | .ccStream dst src => ccStream P dst src s
  | .eaxNew tagSize => eaxNew P tagSize s
  | .eaxNonceSize => eaxNonceSize P s
  | .eaxOverhead => eaxOverhead s
  | .eaxSeal dst nonce text ad => eaxSeal P dst nonce text ad s
  | .eaxOpen dst nonce text ad => eaxOpen P dst nonce text ad s

/-- Where `given` holds of the parameters, `exec i s` answers a next state of which `gives` holds; and likewise at every
other parameters. (The parameters at hand are opaque, so what `given` asks of them, a buffer large enough say, is shown
to be met at parameters written out.) -/
def ExecGives (i : Instr) (s : State) (given : Params → Prop) (gives : Params → State → Prop) : Prop :=
  (given s.params → ∃ t, exec i s = .next t ∧ gives s.params t) ∧
  ∀ P, given P → gives P (runAt P i s)

/-- The state after the command has the response `(STATUS, VALUE, TAG)` appended to the response port. -/
abbrev Answers (s t : State) (st : Status) (value : Word) (tag : List Byte) : Prop :=
  t.respPort = s.respPort ++ [⟨st, value, tag⟩]

/-- The status of the latest response. -/
def lastStatus (s : State) : Option Status := s.respPort.getLast?.map (·.status)

/-- The stream context is unchanged (R21 to R26). -/
abbrev SameStream (s t : State) : Prop :=
  t.CC_VALID = s.CC_VALID ∧ t.S = s.S ∧ t.KB = s.KB ∧ t.OFF = s.OFF ∧ t.ROUNDS = s.ROUNDS

/-- The EAX context is unchanged (R30 to R33). -/
abbrev SameEax (s t : State) : Prop :=
  t.EAX_VALID = s.EAX_VALID ∧ t.TAGSIZE = s.TAGSIZE ∧ t.CTR = s.CTR ∧ t.KS = s.KS

/-- All state of R20 is unchanged, and so are the coming moves and the attached functions. -/
abbrev SameCore (s t : State) : Prop :=
  SameStream s t ∧ SameEax s t ∧ t.BUF = s.BUF ∧ t.hostMoves = s.hostMoves ∧ t.attached = s.attached

/-- A range that lies in `BUF` (R56). -/
abbrev InBuf (P : Params) (r : Region) : Prop := r.a + r.n ≤ P.BUF_SIZE

/-- The extent of `n` bytes at `dst` and the range `r` have no byte in common (R57). -/
abbrev Apart (dst n : Nat) (r : Region) : Prop := n = 0 ∨ r.n = 0 ∨ dst + n ≤ r.a ∨ r.a + r.n ≤ dst

/-- The extent of `n` bytes at `dst` is exactly in place on the range `r`, or apart from it (R57). -/
abbrev InPlaceOrApart (dst n : Nat) (r : Region) : Prop := dst = r.a ∨ Apart dst n r

/-- A round count that R116 calls valid. -/
abbrev ValidRounds (w : Word) : Prop := 0 < w.toInt ∧ w.toInt % 2 = 0

/-- The memory `m'` is `m` with the `n` bytes at `src` XOR-ed with the keystream `ks` and written at `dst`, every other
byte unchanged (the closed forms of R130, R133 and R151). -/
def XoredInto (m m' : Memory) (d dst src n : Nat) (ks : Nat → Byte) : Prop :=
  ∀ a, m'.get? a = if dst ≤ a ∧ a < dst + n then some (m.readByte d (src + (a - dst)) ^^^ ks (a - dst)) else m.get? a

/-- Every byte of the range holds a value (R222 (d)). -/
def SpanWritten (m : Memory) (a n : Nat) : Prop := ∀ i, i < n → (m.get? (a + i)).isSome

/-- The checks of `CC_XOR` pass (R130). -/
abbrev CcXorAccepts (P : Params) (rounds : Word) (dst src : Region) : Prop :=
  src.n ≤ dst.n ∧ ValidRounds rounds ∧ (InBuf P dst ∧ InBuf P src) ∧ InPlaceOrApart dst.a src.n src

/-- The checks of `CC_STREAM` pass (R133). -/
abbrev CcStreamAccepts (P : Params) (dst src : Region) (s : State) : Prop :=
  s.CC_VALID = true ∧ src.n ≤ dst.n ∧ (InBuf P dst ∧ InBuf P src) ∧ InPlaceOrApart dst.a src.n src

/-- The checks of `EAX_NEW` pass (R161). -/
abbrev EaxNewAccepts (P : Params) (tagSize : Word) : Prop :=
  P.MAC_SUPPORTED = true ∧ 1 ≤ tagSize.toInt ∧ tagSize.toInt ≤ P.B

/-- The range and overlap checks of the EAX commands for an extent of `n` bytes (R164, R165). -/
abbrev EaxRanges (P : Params) (n : Nat) (dst nonce text ad : Region) : Prop :=
  (InBuf P dst ∧ InBuf P nonce ∧ InBuf P text ∧ InBuf P ad) ∧
  Apart dst.a n nonce ∧ Apart dst.a n ad ∧ InPlaceOrApart dst.a n text

/-- The checks of `EAX_SEAL` pass (R164). -/
abbrev SealAccepts (P : Params) (dst nonce text ad : Region) (s : State) : Prop :=
  s.EAX_VALID = true ∧ nonce.n = P.B ∧ text.n ≤ dst.n ∧ EaxRanges P text.n dst nonce text ad

/-- The entry checks of `EAX_OPEN` pass (R165). -/
abbrev OpenAccepts (P : Params) (dst nonce text ad : Region) (s : State) : Prop :=
  s.EAX_VALID = true ∧ nonce.n = P.B ∧ s.TAGSIZE ≤ text.n ∧ text.n - s.TAGSIZE ≤ dst.n ∧
  EaxRanges P (text.n - s.TAGSIZE) dst nonce text ad

/-- The register `CTR` as a big-endian number (R32, R150). -/
def ctrValue (ctr : List Byte) : Nat := ctr.foldl (fun v b => 256 * v + b.toNat) 0

/-- The register `q` increments after `seed`. -/
def ctrAt (seed : List Byte) (q : Nat) : List Byte := ctrInc^[q] seed

/-- The counter-mode keystream from `seed`: byte `p` is byte `p mod B` of `E(seed + p div B)` (R151). -/
def ctrStream (P : Params) (seed : List Byte) (p : Nat) : Byte := (P.E (ctrAt seed (p / P.B))).getD (p % P.B) 0

/-- Counter mode ran over `n` bytes from `seed` (R151): the data, the two registers, the calls of `E`. -/
def CtrRan (P : Params) (seed : List Byte) (dst src n : Nat) (s t : State) : Prop :=
  XoredInto s.BUF t.BUF s.draws dst src n (ctrStream P seed) ∧
  t.CTR = ctrAt seed (chunkCount P n) ∧
  t.KS = (if n = 0 then s.KS else P.E (ctrAt seed (chunkCount P n - 1))) ∧
  t.EAX_VALID = s.EAX_VALID ∧ t.TAGSIZE = s.TAGSIZE ∧ SameStream s t ∧ t.hostMoves = s.hostMoves

/-- The calls of `E` over `q` chunks from `seed` (R177). -/
def ctrCalls (seed : List Byte) (q : Nat) : List PortEvent := (List.range q).map fun j => .encrypt (ctrAt seed j)

/-- The stream context stands at position `p` of the keystream of `key`, `nonce` and `rounds` (R27). -/
def AtPosition (key : Vector Word 8) (nonce : Vector Word 3) (rounds p : Nat) (s : State) : Prop :=
  s.CC_VALID = true ∧ s.ROUNDS = rounds ∧ s.OFF.val = p % 64 ∧
  s.S = chachaInit key nonce (BitVec.ofNat 32 ((p + 63) / 64)) ∧
  (s.OFF.val ≠ 0 → s.KB = ksBlock key nonce (BitVec.ofNat 32 (p / 64)) rounds)

/-- The invariant of the stream context (R25, R27): once valid it stands somewhere in some keystream, of a valid round
count. -/
def StreamInv (s : State) : Prop :=
  s.CC_VALID = true →
    (0 < s.ROUNDS ∧ s.ROUNDS % 2 = 0 ∧ s.ROUNDS ≤ 2 ^ 31 - 2) ∧ ∃ key nonce p, AtPosition key nonce s.ROUNDS p s

/-- The invariant of the EAX context (R20, R31). -/
abbrev EaxInv (P : Sizes) (s : State) : Prop :=
  s.CTR.length = P.B ∧ s.KS.length = P.B ∧
  (s.EAX_VALID = true → 1 ≤ s.TAGSIZE ∧ s.TAGSIZE ≤ P.B ∧ s.TAGSIZE < 2 ^ 31)

/-- The invariant of memory: the canonical form, and no byte outside `BUF` (R50). -/
def MemInv (P : Sizes) (s : State) : Prop := s.BUF.wf ∧ ∀ c ∈ s.BUF, c.1 < P.BUF_SIZE

/-- The state after one move from outside, `F key` being the parameters while the functions of number `key` are attached.
A write that reaches outside `BUF`, at which the machine stops, changes nothing here. The machine's own moves are these at
`Config.params`. -/
def moveAt (F : Nat → Params) (m : HostMove) (s : State) : State :=
  match m with
  | .issue ws =>
    match decode ws with
    | .illegal _ => s.raise .illegalCmd
    | .command i => runAt (F s.attached) i s
  | .write a bytes => if a + bytes.length ≤ (F s.attached).BUF_SIZE then { s with BUF := s.BUF.writeBytes a bytes } else s
  | .reset => resetEvent s
  | .rekey key => rekey key s

/-- The source bytes and the output bytes of a move that is a `CC_STREAM` and succeeds from `s` to `t`; none of any
other. -/
def streamedBy (m : HostMove) (s t : State) : List Byte × List Byte :=
  match m with
  | .issue ws =>
    match decode ws with
    | .command (.ccStream dst src) =>
      if lastStatus t = some .ok then (s.BUF.readBytes s.draws src.a src.n, t.BUF.readBytes t.draws dst.a src.n)
      else ([], [])
    | _ => ([], [])
  | _ => ([], [])

/-- A run over the moves of the host: the source bytes and the output bytes of the `CC_STREAM` commands in it that
succeed, in order, and the last state (R134). -/
def streamTrace (F : Nat → Params) : List HostMove → State → List Byte × List Byte × State
  | [], s => ([], [], s)
  | m :: moves, s =>
    let t := moveAt F m s
    let (input, output) := streamedBy m s t
    let (inputs, outputs, last) := streamTrace F moves t
    (input ++ inputs, output ++ outputs, last)

end Sys2Proof.Machine
end

