-- ==== Sys2Proof/Certificates/Slice0/Obligations.lean ====
section
/-! DEFINITION. The statements about the CORE, for the provers. -/

open Sys2Proof Sys2Proof.Machine

/-! Encoding (spec/30_encoding.md) -/

/-- R84 to R92, R94: every command, with every value of every field, is read back from its descriptor. -/
def Obligations.DecodeInvertsEncode : Prop := ∀ i : Instr, decode (encode i) = .command i

/-- R92, R94: a descriptor that is read as a command is that command's descriptor, no bit dropped. -/
def Obligations.EncodeInvertsDecode : Prop := ∀ (ws : Descriptor) (i : Instr), decode ws = .command i → encode i = ws

/-- R93: the illegal descriptors are exactly those of its four clauses (`Descriptor.wellFormed`); an illegal one is
answered `ST_ILLEGAL_CMD` and changes nothing, and every other one, whatever its operand fields hold, is decoded and
judged by the command's own checks. -/
def Obligations.IllegalDescriptorsExactly : Prop :=
  ∀ (ws : Descriptor) (s : State),
    (ws.wellFormed = false → ∃ t, answer ws s = .next t ∧ Answers s t .illegalCmd 0 [] ∧ SameCore s t ∧ t.portLog = s.portLog) ∧
    (ws.wellFormed = true → ∃ i, decode ws = .command i ∧ answer ws s = exec i s)

/-- Words written out from the tables of R84 to R89, one per format. -/
def Obligations.SpecWordsDecode : Prop :=
  decode [0x01, 20, 7, 0xa0, 0xa1, 0xa2, 0xa3, 0xa4, 0xa5, 0xa6, 0xa7, 0xb0, 0xb1, 0xb2, 0x80, 65, 0x00, 64] =
    .command (.ccXor 20 7 #v[0xa0, 0xa1, 0xa2, 0xa3, 0xa4, 0xa5, 0xa6, 0xa7] #v[0xb0, 0xb1, 0xb2] ⟨0x80, 65⟩ ⟨0x00, 64⟩) ∧
  decode [0x02, 8, 0xa0, 0xa1, 0xa2, 0xa3, 0xa4, 0xa5, 0xa6, 0xa7, 0xb0, 0xb1, 0xb2] =
    .command (.ccNew 8 #v[0xa0, 0xa1, 0xa2, 0xa3, 0xa4, 0xa5, 0xa6, 0xa7] #v[0xb0, 0xb1, 0xb2]) ∧
  decode [0x03, 0x10, 4, 0x20, 3] = .command (.ccStream ⟨0x10, 4⟩ ⟨0x20, 3⟩) ∧
  decode [0x10, 0xffffffff] = .command (.eaxNew 0xffffffff) ∧
  decode [0x11] = .command .eaxNonceSize ∧
  decode [0x12] = .command .eaxOverhead ∧
  decode [0x13, 1, 2, 3, 4, 5, 6, 7, 8] = .command (.eaxSeal ⟨1, 2⟩ ⟨3, 4⟩ ⟨5, 6⟩ ⟨7, 8⟩) ∧
  decode [0x14, 1, 2, 3, 4, 5, 6, 7, 8] = .command (.eaxOpen ⟨1, 2⟩ ⟨3, 4⟩ ⟨5, 6⟩ ⟨7, 8⟩)

/-- R10, R66, R94: when the oldest of the host's moves is a descriptor that decodes to `i`, the step is `exec i` at the
state from which that move is taken. When it is an illegal descriptor, the step answers `(ST_ILLEGAL_CMD, 0, empty)` and
does nothing else. (That the host's moves stand in a list is the model's choice: log entry 3.) -/
def Obligations.StepRunsDecodedCommand : Prop :=
  ∀ (s : State) (ws : Descriptor) (rest : List HostMove), s.hostMoves = .issue ws :: rest →
    (∀ i, decode ws = .command i → step s = exec i { s with hostMoves := rest }) ∧
    (ws.wellFormed = false → step s =
      .next { s with hostMoves := rest, respPort := s.respPort ++ [⟨.illegalCmd, 0, []⟩] })

/-- R81: a frame is sent as four bytes a word, byte `j` being bits `8 (j mod 4) + 7 .. 8 (j mod 4)` of word `j div 4`
(bits 7..0 first), and is received as the same words. -/
def Obligations.ByteTransportKeepsFrames : Prop :=
  ∀ ws : List Word,
    (frameBytes ws).length = 4 * ws.length ∧
    (∀ j, j < 4 * ws.length →
      (frameBytes ws)[j]? = some (((ws.getD (j / 4) 0) >>> (8 * (j % 4))).setWidth 8)) ∧
    bytesFrame (frameBytes ws) = some ws

/-- R95: the words of a response: status, value, tag length, then the tag packed little-endian with zeros in the unused
high bytes of the last word. R190: the eight status codes. -/
def Obligations.ResponseFrameHoldsResponse : Prop :=
  (Status.ok.code = 0x00 ∧ Status.invalidParam.code = 0x01 ∧ Status.authFail.code = 0x02 ∧
    Status.unsupportedCipher.code = 0x03 ∧ Status.illegalCmd.code = 0x10 ∧ Status.noContext.code = 0x11 ∧
    Status.badAddress.code = 0x12 ∧ Status.badAlias.code = 0x13) ∧
  ∀ r : Response,
    r.words.length = 3 + (r.tag.length + 3) / 4 ∧
    r.words[0]? = some (r.status.code.setWidth 32) ∧ r.words[1]? = some r.value ∧
    r.words[2]? = some (BitVec.ofNat 32 r.tag.length) ∧
    ∀ j, j < 4 * ((r.tag.length + 3) / 4) →
      ((r.words.getD (3 + j / 4) 0) >>> (8 * (j % 4))).setWidth 8 = r.tag.getD j 0

/-! The round engine (spec/40_chacha_engine.md) -/

/-- R111: `LE32BYTES(w)` is the bytes of `w`, bits 7..0 first; it and `LE32` are inverse to each other. -/
def Obligations.Le32BytesInverse : Prop :=
  (∀ (w : Word) (i : Fin 4), (le32Bytes w)[i] = (w >>> (8 * i.val)).setWidth 8) ∧
  (∀ w : Word, le32 (le32Bytes w)[0] (le32Bytes w)[1] (le32Bytes w)[2] (le32Bytes w)[3] = w) ∧
  (∀ b0 b1 b2 b3 : Byte, le32Bytes (le32 b0 b1 b2 b3) = #v[b0, b1, b2, b3]) ∧
  le32Bytes 0xade0b876 = #v[0x76, 0xb8, 0xe0, 0xad]

/-- R112: `UNPACK64` reads word `i` from bytes `4 i .. 4 i + 3`, `PACK64` puts the bytes of word `i` there, and they are
mutual inverses. -/
def Obligations.Pack64Inverse : Prop :=
  (∀ (b : Block) (i : Nat) (h : i < 16), (unpack64 b)[i] = le32 b[4 * i] b[4 * i + 1] b[4 * i + 2] b[4 * i + 3]) ∧
  (∀ (x : ChaState) (i : Nat) (h : i < 16) (j : Nat) (hj : j < 4), (pack64 x)[4 * i + j] = (le32Bytes x[i])[j]) ∧
  (∀ x : ChaState, unpack64 (pack64 x) = x) ∧ ∀ b : Block, pack64 (unpack64 b) = b

/-- R113: the quarter-round is a bijection on quadruples of words, and fixes the zero quadruple. (Its twelve steps are
the spec's general knowledge: log entry 10.) -/
def Obligations.QuarterRoundBijective : Prop :=
  Function.Bijective (fun q : Word × Word × Word × Word => quarterRound q.1 q.2.1 q.2.2.1 q.2.2.2) ∧
  quarterRound 0 0 0 0 = (0, 0, 0, 0)

/-- R115: the four quarter-rounds of the column round may be evaluated in any order, and so may those of the diagonal
round. (The index quadruples are the spec's general knowledge: log entry 10.) -/
def Obligations.HalfRoundOrderFree : Prop :=
  ∀ (x : ChaState) (l : List (Fin 16 × Fin 16 × Fin 16 × Fin 16)),
    (l.Perm columns → l.foldl quarterRoundAt x = columns.foldl quarterRoundAt x) ∧
    (l.Perm diagonals → l.foldl quarterRoundAt x = diagonals.foldl quarterRoundAt x)

/-- R117, R118: a block advances word 12 by exactly one, modulo 2^32 and without a carry into word 13, and changes no
other word; the block is computed from the counter before the increment. -/
def Obligations.BlockAdvancesCounterOnly : Prop :=
  ∀ (x : ChaState) (rounds : Nat),
    (chachaBlock x rounds).1 = blockOf x rounds ∧
    (chachaBlock x rounds).2[12].toNat = (x[12].toNat + 1) % 2 ^ 32 ∧
    ∀ j : Fin 16, j ≠ 12 → (chachaBlock x rounds).2[j] = x[j]

/-! The ChaCha commands (spec/41_chacha_xor.md) -/

/-- R130: a `CC_XOR` whose checks pass writes source XOR keystream over the extent and no other byte, answers
`(ST_OK, SRC_LEN)`, and touches no register and no function port. -/
def Obligations.CcXorWritesKeystreamXor : Prop :=
  ∀ (rounds counter : Word) (key : Vector Word 8) (nonce : Vector Word 3) (dst src : Region) (s : State),
    ExecGives (.ccXor rounds counter key nonce dst src) s (fun P => CcXorAccepts P rounds dst src) fun _ t =>
      XoredInto s.BUF t.BUF s.draws dst.a src.a src.n (kstream key nonce counter rounds.toInt.toNat) ∧
      Answers s t .ok src.len [] ∧ SameStream s t ∧ SameEax s t ∧ t.hostMoves = s.hostMoves ∧ t.portLog = s.portLog

/-- R130, R197: when `CC_XOR` fails, in the order of its checks. -/
def Obligations.CcXorRefusesInOrder : Prop :=
  ∀ (rounds counter : Word) (key : Vector Word 8) (nonce : Vector Word 3) (dst src : Region) (s : State),
    let i := Instr.ccXor rounds counter key nonce dst src
    ExecGives i s (fun _ => dst.n < src.n) (fun _ t => t = s.raise .invalidParam) ∧
    ExecGives i s (fun _ => src.n ≤ dst.n ∧ ¬ValidRounds rounds) (fun _ t => t = s.raise .invalidParam) ∧
    ExecGives i s (fun P => src.n ≤ dst.n ∧ ValidRounds rounds ∧ ¬(InBuf P dst ∧ InBuf P src))
      (fun _ t => t = s.raise .badAddress) ∧
    ExecGives i s (fun P => src.n ≤ dst.n ∧ ValidRounds rounds ∧ (InBuf P dst ∧ InBuf P src) ∧
      ¬InPlaceOrApart dst.a src.n src) (fun _ t => t = s.raise .badAlias)

/-- R137: encryption and decryption are the same command: `CC_XOR` with the same key, nonce, counter and rounds over its
own output gives the source back, wherever it is put. -/
def Obligations.CcXorTwiceRestores : Prop :=
  ∀ (P : Params) (rounds counter : Word) (key : Vector Word 8) (nonce : Vector Word 3) (dst src back out : Region) (s : State),
    CcXorAccepts P rounds dst src → CcXorAccepts P rounds back out → out.a = dst.a → out.n = src.n →
    let t := runAt P (.ccXor rounds counter key nonce back out) (runAt P (.ccXor rounds counter key nonce dst src) s)
    ∀ j, j < src.n → t.BUF.get? (back.a + j) = some (s.BUF.readByte s.draws (src.a + j))

/-- R136: two `CC_XOR` commands over the two parts of a range equal one over the whole when the first part is a multiple
of 64 bytes and the second command's counter is advanced by its blocks. -/
def Obligations.CcXorSplitsAtBlocks : Prop :=
  ∀ (P : Params) (rounds counter : Word) (key : Vector Word 8) (nonce : Vector Word 3) (dst src dst1 src1 dst2 src2 : Region)
    (s : State) (k : Nat),
    CcXorAccepts P rounds dst src → SpanWritten s.BUF src.a src.n → 64 * k ≤ src.n →
    dst1.a = dst.a → dst1.n = 64 * k → src1.a = src.a → src1.n = 64 * k →
    dst2.a = dst.a + 64 * k → dst2.n = src.n - 64 * k → src2.a = src.a + 64 * k → src2.n = src.n - 64 * k →
    let one := runAt P (.ccXor rounds counter key nonce dst src) s
    let two := runAt P (.ccXor rounds (counter + BitVec.ofNat 32 k) key nonce dst2 src2)
      (runAt P (.ccXor rounds counter key nonce dst1 src1) s)
    lastStatus two = some .ok ∧ ∀ a, two.BUF.get? a = one.BUF.get? a

/-- R132: `CC_NEW` with a valid round count fills the stream context, counter 0, and leaves `KB`, `BUF` and the EAX
context alone, also over an existing context; with any other it fails and keeps the context as it was. -/
def Obligations.CcNewFillsContext : Prop :=
  ∀ (rounds : Word) (key : Vector Word 8) (nonce : Vector Word 3) (s : State),
    (ValidRounds rounds → ∃ t, exec (.ccNew rounds key nonce) s = .next t ∧
      t.S = chachaInit key nonce 0 ∧ (t.ROUNDS : Int) = rounds.toInt ∧ t.OFF = 0 ∧ t.CC_VALID = true ∧
      Answers s t .ok 0 [] ∧ t.KB = s.KB ∧ t.BUF = s.BUF ∧ SameEax s t ∧ t.hostMoves = s.hostMoves ∧ t.portLog = s.portLog) ∧
    (¬ValidRounds rounds → exec (.ccNew rounds key nonce) s = .next (s.raise .invalidParam))

/-- R133, R27: at position `p` of a keystream, a `CC_STREAM` of `n` bytes whose checks pass writes source XOR keystream
bytes `p .. p + n` over the extent and no other byte, answers `(ST_OK, n)`, and stands at position `p + n`. -/
def Obligations.CcStreamAdvancesPosition : Prop :=
  ∀ (key : Vector Word 8) (nonce : Vector Word 3) (rounds p : Nat) (dst src : Region) (s : State),
    ExecGives (.ccStream dst src) s (fun P => AtPosition key nonce rounds p s ∧ CcStreamAccepts P dst src s) fun _ t =>
      XoredInto s.BUF t.BUF s.draws dst.a src.a src.n (fun j => kstream key nonce 0 rounds (p + j)) ∧
      AtPosition key nonce rounds (p + src.n) t ∧ Answers s t .ok src.len []

/-- R133 (state written), from any state: a `CC_STREAM` whose checks pass changes only the extent, `S[12]` by the number
of blocks generated, `OFF`, and `KB` when a new leftover block is generated. -/
def Obligations.CcStreamFrame : Prop :=
  ∀ (dst src : Region) (s : State),
    ExecGives (.ccStream dst src) s (fun P => CcStreamAccepts P dst src s) fun _ t =>
      (∀ a, (a < dst.a ∨ dst.a + src.n ≤ a) → t.BUF.get? a = s.BUF.get? a) ∧
      t.S = s.S.set 12 (s.S[12] + BitVec.ofNat 32 ((src.n - leftoverLen src.n s + 63) / 64)) ∧
      t.OFF.val = (s.OFF.val + src.n) % 64 ∧
      ((src.n - leftoverLen src.n s) % 64 = 0 → t.KB = s.KB) ∧
      t.CC_VALID = s.CC_VALID ∧ t.ROUNDS = s.ROUNDS ∧ SameEax s t ∧ t.hostMoves = s.hostMoves ∧ t.portLog = s.portLog

/-- R133, R197: when `CC_STREAM` fails, in the order of its checks; no keystream is consumed (R228). -/
def Obligations.CcStreamRefusesInOrder : Prop :=
  ∀ (dst src : Region) (s : State),
    let i := Instr.ccStream dst src
    ExecGives i s (fun _ => s.CC_VALID = false) (fun _ t => t = s.raise .noContext) ∧
    ExecGives i s (fun _ => s.CC_VALID = true ∧ dst.n < src.n) (fun _ t => t = s.raise .invalidParam) ∧
    ExecGives i s (fun P => s.CC_VALID = true ∧ src.n ≤ dst.n ∧ ¬(InBuf P dst ∧ InBuf P src))
      (fun _ t => t = s.raise .badAddress) ∧
    ExecGives i s (fun P => s.CC_VALID = true ∧ src.n ≤ dst.n ∧ (InBuf P dst ∧ InBuf P src) ∧
      ¬InPlaceOrApart dst.a src.n src) (fun _ t => t = s.raise .badAlias)

/-- R134: after a successful `CC_NEW`, whatever descriptors, host writes of `BUF` and re-keyings of the block cipher follow
(no reset, and no `CC_NEW` that succeeds, among them), the outputs of the `CC_STREAM` commands that succeed are together what one `CC_XOR` with counter 0
writes for their sources together. -/
def Obligations.StreamEqualsOneShot : Prop :=
  ∀ (F : Nat → Params) (rounds : Word) (key : Vector Word 8) (nonce : Vector Word 3) (s : State) (moves : List HostMove),
    ValidRounds rounds → .reset ∉ moves →
    (∀ ws r k v, .issue ws ∈ moves → decode ws = .command (.ccNew r k v) → ¬ValidRounds r) →
    let trace := streamTrace F moves (runAt (F s.attached) (.ccNew rounds key nonce) s)
    trace.2.1 = xorBytes trace.1 ((List.range trace.1.length).map (kstream key nonce 0 rounds.toInt.toNat)) ∧
    ∀ (dst src : Region) (u : State), CcXorAccepts (F u.attached) rounds dst src →
      u.BUF.readBytes u.draws src.a src.n = trace.1 →
      let v := runAt (F u.attached) (.ccXor rounds 0 key nonce dst src) u
      v.BUF.readBytes v.draws dst.a src.n = trace.2.1

/-- R135: one `CC_STREAM` over a range and two over any prefix and suffix of it end with the same memory and the same
`S` and `OFF`, and with the same `KB` when `OFF` is not 0. -/
def Obligations.StreamChunkIndependence : Prop :=
  ∀ (P : Params) (key : Vector Word 8) (nonce : Vector Word 3) (rounds p k : Nat) (dst src dst1 src1 dst2 src2 : Region)
    (s : State),
    AtPosition key nonce rounds p s → CcStreamAccepts P dst src s → SpanWritten s.BUF src.a src.n → k ≤ src.n →
    dst1.a = dst.a → dst1.n = k → src1.a = src.a → src1.n = k →
    dst2.a = dst.a + k → dst2.n = src.n - k → src2.a = src.a + k → src2.n = src.n - k →
    let one := runAt P (.ccStream dst src) s
    let two := runAt P (.ccStream dst2 src2) (runAt P (.ccStream dst1 src1) s)
    lastStatus two = some .ok ∧ (∀ a, two.BUF.get? a = one.BUF.get? a) ∧ two.S = one.S ∧ two.OFF = one.OFF ∧
    (one.OFF.val ≠ 0 → two.KB = one.KB)

/-- R133 corner case (f): from `CC_NEW`, 64 bytes give counter 1 and no leftover; 1 byte more gives counter 2 and 1 byte
consumed. -/
def Obligations.CounterBlockBoundary : Prop :=
  ∀ (P : Params) (rounds : Word) (key : Vector Word 8) (nonce : Vector Word 3) (dst src dst' src' : Region) (s : State),
    ValidRounds rounds → src.n = 64 → src'.n = 1 →
    let s1 := runAt P (.ccNew rounds key nonce) s
    let s2 := runAt P (.ccStream dst src) s1
    CcStreamAccepts P dst src s1 → CcStreamAccepts P dst' src' s2 →
    let s3 := runAt P (.ccStream dst' src') s2
    s2.S[12] = 1 ∧ s2.OFF = 0 ∧ s3.S[12] = 2 ∧ s3.OFF = 1

/-- R23: the consumed bytes of `KB`, and all of it while `OFF` is 0, are dead: no command's result depends on them, and
they stay dead. -/
def Obligations.DeadLeftoverUnobservable : Prop :=
  ∀ (P : Params) (i : Instr) (s : State) (kb : Block),
    (s.OFF.val ≠ 0 → ∀ j (h : j < 64), s.OFF.val ≤ j → kb[j] = s.KB[j]) →
    let t := runAt P i s
    let t' := runAt P i { s with KB := kb }
    t' = { t with KB := t'.KB } ∧ (t.OFF.val ≠ 0 → ∀ j (h : j < 64), t.OFF.val ≤ j → t'.KB[j] = t.KB[j])

/-! The counter-mode core (spec/42_ctr_core.md) -/

/-- R150: `CTR_INC` adds one to the register as a big-endian number, modulo `256^B`, at every width. -/
def Obligations.CtrIncIsBigEndianSuccessor : Prop :=
  ∀ ctr : List Byte, (ctrInc ctr).length = ctr.length ∧ ctrValue (ctrInc ctr) = (ctrValue ctr + 1) % 256 ^ ctr.length

/-- R151 corner cases (a) to (c): the calls of `E` that counter mode makes over `n` bytes, on whatever it runs: none for
no byte, `q` for `q` blocks, one more for any remainder, call `j` on the seed incremented `j` times. The chunk count is
that number. -/
def Obligations.ChunkCountOfLength : Prop :=
  ∀ (P : Params) (q r : Nat),
    (chunkCount P (q * P.B) = q ∧ (0 < r → r < P.B → chunkCount P (q * P.B + r) = q + 1)) ∧
    ∀ (seed : List Byte) (dst src : Nat) (s : State),
      (seedAndXor P seed dst src (q * P.B) s).portLog = s.portLog ++ ctrCalls seed q ∧
      (0 < r → r < P.B →
        (seedAndXor P seed dst src (q * P.B + r) s).portLog = s.portLog ++ ctrCalls seed (q + 1))

/-- R153: counter mode run again from the same seed over its own output gives the source back. -/
def Obligations.CtrXorTwiceRestores : Prop :=
  ∀ (P : Params) (seed : List Byte) (dst src back n : Nat) (s : State),
    (dst = src ∨ dst + n ≤ src ∨ src + n ≤ dst) → (back = dst ∨ back + n ≤ dst ∨ dst + n ≤ back) →
    let t := seedAndXor P seed back dst n (seedAndXor P seed dst src n s)
    ∀ j, j < n → t.BUF.get? (back + j) = some (s.BUF.readByte s.draws (src + j))

/-! EAX (spec/43_eax.md) -/

/-- R170, R171: the MAC inputs of different domain tags differ whatever their payloads, and none is shorter than a
block. -/
def Obligations.MacDomainsSeparated : Prop :=
  ∀ (P : Params) (t t' : Byte) (x y : List Byte),
    (domainPrefix P t ++ x).length = P.B + x.length ∧
    (domainPrefix P t ++ x = domainPrefix P t' ++ y → t = t' ∧ x = y)

/-- R161: an `EAX_NEW` whose checks pass sets the tag size and the valid bit and nothing else; `CTR` and `KS` hold no
value afterwards. One whose checks fail fails in their order, the previous context kept. (That the two registers then are
`B` free bytes, of which the two length clauses speak, is the model's choice: log entry 6.) -/
def Obligations.EaxNewFillsContext : Prop :=
  ∀ (tagSize : Word) (s : State),
    ExecGives (.eaxNew tagSize) s (fun P => EaxNewAccepts P tagSize) (fun P t =>
      (t.TAGSIZE : Int) = tagSize.toInt ∧ t.EAX_VALID = true ∧ t.CTR.length = P.B ∧ t.KS.length = P.B ∧
      Answers s t .ok 0 [] ∧ SameStream s t ∧ t.BUF = s.BUF ∧ t.hostMoves = s.hostMoves ∧ t.portLog = s.portLog) ∧
    ExecGives (.eaxNew tagSize) s (fun P => P.MAC_SUPPORTED = false) (fun _ t => t = s.raise .unsupportedCipher) ∧
    ExecGives (.eaxNew tagSize) s (fun P => P.MAC_SUPPORTED = true ∧ (tagSize.toInt < 1 ∨ (P.B : Int) < tagSize.toInt))
      (fun _ t => t = s.raise .invalidParam)

/-- R162: `EAX_NONCESIZE` answers `B` in a valid context and `ST_NO_CONTEXT` in no other, and changes no state. What it
answers for a `B` that no word holds is left open (log entry 9). -/
def Obligations.EaxNonceSizeAnswersB : Prop :=
  ∀ s : State,
    ExecGives .eaxNonceSize s (fun _ => s.EAX_VALID = true) (fun P t => t = s.respond .ok (nonceSizeValue P) []) ∧
    (∀ P : Params, P.B < 2 ^ 32 → (nonceSizeValue P).toNat = P.B) ∧
    ExecGives .eaxNonceSize s (fun _ => s.EAX_VALID = false) (fun _ t => t = s.raise .noContext)

/-- R163: `EAX_OVERHEAD` answers `TAGSIZE` in a valid context and `ST_NO_CONTEXT` in no other, and changes no state. The
bound on `TAGSIZE` is the invariant `EaxInv`. -/
def Obligations.EaxOverheadAnswersTagSize : Prop :=
  ∀ s : State,
    (s.EAX_VALID = true → s.TAGSIZE < 2 ^ 31 →
      ∃ v : Word, v.toNat = s.TAGSIZE ∧ exec .eaxOverhead s = .next (s.respond .ok v [])) ∧
    (s.EAX_VALID = false → exec .eaxOverhead s = .next (s.raise .noContext))

/-- R164: an `EAX_SEAL` whose checks pass runs counter mode from `authNonce` over the plaintext into the extent (data,
`CTR`, `KS`, nothing else), and answers `(ST_OK, n, tag)` with the tag the XOR of the three MACs, the third over the
ciphertext just written, cut to `TAGSIZE`. -/
def Obligations.EaxSealEncryptsAndTags : Prop :=
  ∀ (dst nonce text ad : Region) (s : State),
    ExecGives (.eaxSeal dst nonce text ad) s (fun P => SealAccepts P dst nonce text ad s) fun P t =>
      CtrRan P (authNonce P nonce s) dst.a text.a text.n s t ∧
      Answers s t .ok text.len (eaxTag s.TAGSIZE (authNonce P nonce s) (authData P ad s)
        (omac P 0x02 (t.BUF.readBytes t.draws dst.a text.n)))

/-- R164 corner case (a): sealing an empty plaintext writes nothing, leaves `CTR` at `authNonce` and `KS` alone, and
still answers a tag of `TAGSIZE` bytes. The bound on `TAGSIZE` is the invariant `EaxInv`. -/
def Obligations.EaxSealOfEmptyText : Prop :=
  ∀ (dst nonce text ad : Region) (s : State),
    ExecGives (.eaxSeal dst nonce text ad) s
      (fun P => SealAccepts P dst nonce text ad s ∧ text.n = 0 ∧ s.TAGSIZE ≤ P.B) fun P t =>
        (∀ a, t.BUF.get? a = s.BUF.get? a) ∧ t.CTR = authNonce P nonce s ∧ t.KS = s.KS ∧
        ∃ tag : List Byte, tag.length = s.TAGSIZE ∧ Answers s t .ok 0 tag

/-- R164, R197: when `EAX_SEAL` fails, in the order of its checks. -/
def Obligations.EaxSealRefusesInOrder : Prop :=
  ∀ (dst nonce text ad : Region) (s : State),
    let i := Instr.eaxSeal dst nonce text ad
    ExecGives i s (fun _ => s.EAX_VALID = false) (fun _ t => t = s.raise .noContext) ∧
    ExecGives i s (fun P => s.EAX_VALID = true ∧ nonce.n ≠ P.B) (fun _ t => t = s.raise .invalidParam) ∧
    ExecGives i s (fun P => s.EAX_VALID = true ∧ nonce.n = P.B ∧ dst.n < text.n) (fun _ t => t = s.raise .invalidParam) ∧
    ExecGives i s (fun P => s.EAX_VALID = true ∧ nonce.n = P.B ∧ text.n ≤ dst.n ∧
      ¬(InBuf P dst ∧ InBuf P nonce ∧ InBuf P text ∧ InBuf P ad)) (fun _ t => t = s.raise .badAddress) ∧
    ExecGives i s (fun P => s.EAX_VALID = true ∧ nonce.n = P.B ∧ text.n ≤ dst.n ∧
      (InBuf P dst ∧ InBuf P nonce ∧ InBuf P text ∧ InBuf P ad) ∧
      ¬(Apart dst.a text.n nonce ∧ Apart dst.a text.n ad ∧ InPlaceOrApart dst.a text.n text))
      (fun _ t => t = s.raise .badAlias)

/-- R165: an `EAX_OPEN` whose entry checks pass and whose received tag is the expected one runs counter mode from
`authNonce` over the body into the extent (data, `CTR`, `KS`, nothing else), and answers `(ST_OK, TEXT_LEN - TAGSIZE)`. -/
def Obligations.EaxOpenDecryptsOnMatch : Prop :=
  ∀ (dst nonce text ad : Region) (s : State),
    ExecGives (.eaxOpen dst nonce text ad) s
      (fun P => OpenAccepts P dst nonce text ad s ∧ expectedTag P nonce text ad s = receivedTag text s) fun P t =>
        CtrRan P (authNonce P nonce s) dst.a text.a (text.n - s.TAGSIZE) s t ∧
        ∃ v : Word, v.toNat = text.n - s.TAGSIZE ∧ Answers s t .ok v []

/-- R165, R192: on a tag mismatch `EAX_OPEN` answers exactly what it answers to a sealed message shorter than the tag,
`(ST_AUTH_FAIL, 0, empty)`, writes no byte and no register, and does not call `E`. -/
def Obligations.EaxOpenRejectsMismatch : Prop :=
  ∀ (dst nonce text ad : Region) (s : State),
    ExecGives (.eaxOpen dst nonce text ad) s
      (fun P => OpenAccepts P dst nonce text ad s ∧ expectedTag P nonce text ad s ≠ receivedTag text s) fun _ t =>
        Answers s t .authFail 0 [] ∧ SameCore s t ∧ ∀ x, PortEvent.encrypt x ∈ t.portLog → PortEvent.encrypt x ∈ s.portLog

/-- R165, R197: when `EAX_OPEN` fails at entry, in the order of its checks. -/
def Obligations.EaxOpenRefusesInOrder : Prop :=
  ∀ (dst nonce text ad : Region) (s : State),
    let i := Instr.eaxOpen dst nonce text ad
    let n := text.n - s.TAGSIZE
    ExecGives i s (fun _ => s.EAX_VALID = false) (fun _ t => t = s.raise .noContext) ∧
    ExecGives i s (fun P => s.EAX_VALID = true ∧ nonce.n ≠ P.B) (fun _ t => t = s.raise .invalidParam) ∧
    ExecGives i s (fun P => s.EAX_VALID = true ∧ nonce.n = P.B ∧ text.n < s.TAGSIZE) (fun _ t => t = s.raise .authFail) ∧
    ExecGives i s (fun P => s.EAX_VALID = true ∧ nonce.n = P.B ∧ s.TAGSIZE ≤ text.n ∧ dst.n < n)
      (fun _ t => t = s.raise .invalidParam) ∧
    ExecGives i s (fun P => s.EAX_VALID = true ∧ nonce.n = P.B ∧ s.TAGSIZE ≤ text.n ∧ n ≤ dst.n ∧
      ¬(InBuf P dst ∧ InBuf P nonce ∧ InBuf P text ∧ InBuf P ad)) (fun _ t => t = s.raise .badAddress) ∧
    ExecGives i s (fun P => s.EAX_VALID = true ∧ nonce.n = P.B ∧ s.TAGSIZE ≤ text.n ∧ n ≤ dst.n ∧
      (InBuf P dst ∧ InBuf P nonce ∧ InBuf P text ∧ InBuf P ad) ∧
      ¬(Apart dst.a n nonce ∧ Apart dst.a n ad ∧ InPlaceOrApart dst.a n text)) (fun _ t => t = s.raise .badAlias)

/-- R174: what `EAX_SEAL` sealed, placed as one message with its tag and opened with the same nonce, associated data and
tag size, in any state, opens: the response is `(ST_OK, n)` and the destination holds the plaintext. (The message may hold
bytes that nothing has written; that a command reads one value for such a byte wherever it reads it is the model's choice:
log entry 2.) -/
def Obligations.SealThenOpenRestores : Prop :=
  ∀ (P : Params) (dst nonce text ad dst' nonce' text' ad' : Region) (s u : State) (tag : List Byte),
    SealAccepts P dst nonce text ad s →
    let t := runAt P (.eaxSeal dst nonce text ad) s
    Answers s t .ok text.len tag →
    u.TAGSIZE = s.TAGSIZE → OpenAccepts P dst' nonce' text' ad' u → text'.n = text.n + s.TAGSIZE →
    u.operand text' = t.BUF.readBytes t.draws dst.a text.n ++ tag →
    u.operand nonce' = s.operand nonce → u.operand ad' = s.operand ad →
    let v := runAt P (.eaxOpen dst' nonce' text' ad') u
    Answers u v .ok text.len [] ∧ v.BUF.readBytes v.draws dst'.a text.n = s.operand text

/-- R175: a sealed message that opens does not open with a byte of its tag changed. -/
def Obligations.TamperedTagRejected : Prop :=
  ∀ (P : Params) (dst nonce text ad : Region) (s : State) (a : Nat) (v : Byte),
    OpenAccepts P dst nonce text ad s → expectedTag P nonce text ad s = receivedTag text s →
    text.a + (text.n - s.TAGSIZE) ≤ a → a < text.a + text.n → Apart a 1 nonce → Apart a 1 ad →
    v ≠ s.BUF.readByte s.draws a →
    let s' := { s with BUF := s.BUF.set a v }
    lastStatus (runAt P (.eaxOpen dst nonce text ad) s') = some .authFail

/-- R176, R177: what each command drives onto the function ports. `EAX_SEAL`: three MAC evaluations and one call of `E`
per chunk, in the order of its steps; `EAX_OPEN`: the three MAC evaluations, and the calls of `E` only after a match;
every other command nothing. (That the payload goes in one piece is the model's choice: log entry 5.) -/
def Obligations.FunctionPortTraffic : Prop :=
  ∀ (P : Params) (i : Instr) (s : State),
    let t := runAt P i s
    match i with
    | .eaxSeal dst nonce text ad => SealAccepts P dst nonce text ad s →
        t.portLog = s.portLog ++ omacEvents P 0x00 (s.operand nonce) ++ omacEvents P 0x01 (s.operand ad) ++
          ctrCalls (authNonce P nonce s) (chunkCount P text.n) ++ omacEvents P 0x02 (t.BUF.readBytes t.draws dst.a text.n)
    | .eaxOpen dst nonce text ad => OpenAccepts P dst nonce text ad s →
        t.portLog = s.portLog ++ omacEvents P 0x00 (s.operand nonce) ++ omacEvents P 0x01 (s.operand ad) ++
          omacEvents P 0x02 (openBody text s) ++
          if expectedTag P nonce text ad s = receivedTag text s
          then ctrCalls (authNonce P nonce s) (chunkCount P (text.n - s.TAGSIZE)) else []
    | _ => t.portLog = s.portLog

/-- R226: a message sealed under the functions of `P` and opened, with the same nonce, associated data and tag size, under
those of `P'` is judged by the new functions: it opens when they give the tag that it carries, else the response is
`ST_AUTH_FAIL` and nothing changes. (The message may hold bytes that nothing has written: log entry 2.) -/
def Obligations.RekeyedOpenFollowsNewFunctions : Prop :=
  ∀ (P P' : Params) (dst nonce text ad dst' nonce' text' ad' : Region) (s u : State) (tag : List Byte),
    SealAccepts P dst nonce text ad s →
    let t := runAt P (.eaxSeal dst nonce text ad) s
    let sealed := t.BUF.readBytes t.draws dst.a text.n
    Answers s t .ok text.len tag →
    u.TAGSIZE = s.TAGSIZE → OpenAccepts P' dst' nonce' text' ad' u → text'.n = text.n + s.TAGSIZE →
    u.operand text' = sealed ++ tag → u.operand nonce' = s.operand nonce → u.operand ad' = s.operand ad →
    let newNonce := omac P' 0x00 (s.operand nonce)
    let newTag := eaxTag s.TAGSIZE newNonce (omac P' 0x01 (s.operand ad)) (omac P' 0x02 sealed)
    let v := runAt P' (.eaxOpen dst' nonce' text' ad') u
    (newTag = tag → Answers u v .ok text.len [] ∧ CtrRan P' newNonce dst'.a text'.a text.n u v) ∧
    (newTag ≠ tag → Answers u v .authFail 0 [] ∧ SameCore u v)

/-! The machine as a whole -/

/-- R226: when the integrator re-keys the block cipher between two commands, the step attaches the new functions and
changes nothing else, and every command from then on is run with the functions attached when it starts. Nothing else
attaches functions, and no re-keying changes the sizes. (That the functions have numbers is the model's choice: log
entry 8.) -/
def Obligations.RekeyAttachesFunctions : Prop :=
  (∀ (s : State) (key : Nat) (rest : List HostMove), s.hostMoves = .rekey key :: rest →
    step s = .next { s with hostMoves := rest, attached := key }) ∧
  (∀ (i : Instr) (s : State), exec i s = .next (runAt (Config.params s.attached) i s)) ∧
  (∀ s t : State, step s = .next t → t.attached ≠ s.attached →
    ∃ rest, s.hostMoves = .rekey t.attached :: rest) ∧
  ∀ key, (Config.params key).toSizes = Config.sizes

/-- R11: every descriptor, legal or not, in every state, is answered with exactly one response, of a tag of at most `B`
bytes. -/
def Obligations.EveryDescriptorAnsweredOnce : Prop :=
  ∀ (ws : Descriptor) (s : State), ∃ t st value tag, step (s.withDescriptor ws) = .next t ∧ Answers s t st value tag ∧
    tag.length ≤ Config.sizes.B ∧ t.hostMoves = s.hostMoves

/-- R192: `ST_AUTH_FAIL` has two causes, both in `EAX_OPEN`: a sealed message shorter than the tag, a tag mismatch. Both
give the same response, of code 0x02, and leave all state unchanged. -/
def Obligations.AuthFailCauses : Prop :=
  Status.authFail.code = 0x02 ∧ ∀ (i : Instr) (s : State), ExecGives i s (fun _ => True) fun P t =>
    (lastStatus t = some .authFail ↔ ∃ dst nonce text ad, i = .eaxOpen dst nonce text ad ∧
      (s.EAX_VALID = true ∧ nonce.n = P.B ∧ text.n < s.TAGSIZE ∨
        OpenAccepts P dst nonce text ad s ∧ expectedTag P nonce text ad s ≠ receivedTag text s)) ∧
    (lastStatus t = some .authFail → Answers s t .authFail 0 [] ∧ SameCore s t)

/-- R196: a command that answers anything but `ST_OK` leaves every register and every byte of `BUF` as before, and its
response is `(STATUS, 0, empty)`. -/
def Obligations.FailureChangesNothing : Prop :=
  ∀ (i : Instr) (s : State), ExecGives i s (fun _ => True) fun _ t =>
    ∀ st value tag, Answers s t st value tag → st ≠ .ok → value = 0 ∧ tag = [] ∧ SameCore s t

/-- R43: the access matrix, its writes. No command attaches other functions (R226). -/
def Obligations.AccessMatrix : Prop :=
  ∀ (i : Instr) (s : State), ExecGives i s (fun _ => True) fun _ t =>
    t.hostMoves = s.hostMoves ∧ t.attached = s.attached ∧
    match i with
    | .ccXor .. => SameStream s t ∧ SameEax s t
    | .ccNew .. => t.KB = s.KB ∧ SameEax s t ∧ t.BUF = s.BUF
    | .ccStream .. =>
        t.CC_VALID = s.CC_VALID ∧ (∀ j : Fin 16, j ≠ 12 → t.S[j] = s.S[j]) ∧ t.ROUNDS = s.ROUNDS ∧ SameEax s t
    | .eaxNew .. => SameStream s t ∧ t.BUF = s.BUF
    | .eaxNonceSize => SameCore s t
    | .eaxOverhead => SameCore s t
    | .eaxSeal .. => SameStream s t ∧ t.EAX_VALID = s.EAX_VALID ∧ t.TAGSIZE = s.TAGSIZE
    | .eaxOpen .. => SameStream s t ∧ t.EAX_VALID = s.EAX_VALID ∧ t.TAGSIZE = s.TAGSIZE

/-- R46: no command reads a register that holds no value: neither `CTR` and `KS` before writing them, nor the stream
context while `CC_VALID` is 0, nor `TAGSIZE` while `EAX_VALID` is 0. -/
def Obligations.EmptyRegistersUnread : Prop :=
  ∀ (P : Params) (i : Instr) (s : State),
    let t := runAt P i s
    (∀ ctr ks, let t' := runAt P i { s with CTR := ctr, KS := ks }
      t' = { t with CTR := t'.CTR, KS := t'.KS }) ∧
    (s.CC_VALID = false → ∀ x kb off rounds, let t' := runAt P i { s with S := x, KB := kb, OFF := off, ROUNDS := rounds }
      t' = { t with S := t'.S, KB := t'.KB, OFF := t'.OFF, ROUNDS := t'.ROUNDS }) ∧
    (s.EAX_VALID = false → ∀ tagSize, let t' := runAt P i { s with TAGSIZE := tagSize }
      t' = { t with TAGSIZE := t'.TAGSIZE })

/-- R26, R30, R41, R220: in one step a valid bit is set only by its constructor command, and cleared only by reset. -/
def Obligations.ValidBitsChangeOnly : Prop :=
  ∀ s t : State, step s = .next t →
    (s.CC_VALID = true → t.CC_VALID = false → ∃ rest, s.hostMoves = .reset :: rest) ∧
    (s.EAX_VALID = true → t.EAX_VALID = false → ∃ rest, s.hostMoves = .reset :: rest) ∧
    (s.CC_VALID = false → t.CC_VALID = true →
      ∃ ws rest rounds key nonce, s.hostMoves = .issue ws :: rest ∧ decode ws = .command (.ccNew rounds key nonce)) ∧
    (s.EAX_VALID = false → t.EAX_VALID = true →
      ∃ ws rest tagSize, s.hostMoves = .issue ws :: rest ∧ decode ws = .command (.eaxNew tagSize))

/-- R11, spec/93 ("No behaviour of the CORE is left `stuck`"): the machine never refuses, and it stops only when the host
writes outside `BUF` (log entry 7). -/
def Obligations.NoDescriptorStops : Prop :=
  ∀ s : State, (∀ r, step s ≠ .refused r) ∧
    ∀ f, step s = .fault f →
      ∃ a bytes rest, s.hostMoves = .write a bytes :: rest ∧ Config.sizes.BUF_SIZE < a + bytes.length

/-- R64, R59: a host write between commands puts exactly its bytes into `BUF`, changes no register, and is answered with
nothing. -/
def Obligations.HostWriteWritesBuf : Prop :=
  ∀ (s : State) (a : Nat) (bytes : List Byte) (rest : List HostMove), s.hostMoves = .write a bytes :: rest →
    a + bytes.length ≤ Config.sizes.BUF_SIZE → ∃ t, step s = .next t ∧ t.hostMoves = rest ∧
      (∀ x, t.BUF.get? x = if a ≤ x ∧ x < a + bytes.length then bytes[x - a]? else s.BUF.get? x) ∧
      SameStream s t ∧ SameEax s t ∧ t.attached = s.attached ∧ t.respPort = s.respPort ∧ t.portLog = s.portLog

/-- R220: the reset event clears both valid bits and leaves no byte of `BUF` with a value; it is answered with nothing. The
parameters are not affected. (That the moves still to come and the responses given pass through it unchanged is the model's choice: log entries 4
and 12.) -/
def Obligations.ResetEventClears : Prop :=
  ∀ (s : State) (rest : List HostMove), s.hostMoves = .reset :: rest → ∃ t, step s = .next t ∧
    t.CC_VALID = false ∧ t.EAX_VALID = false ∧ (∀ a, t.BUF.get? a = none) ∧ t.params = s.params ∧ t.hostMoves = rest ∧
    t.respPort = s.respPort

/-- R45: after reset both valid bits are 0 and no byte of `BUF` holds a value. (The zeros of the other registers are the
model's choice, log entry 1; nothing is stated of them.) -/
def Obligations.ResetValues : Prop :=
  State.reset.CC_VALID = false ∧ State.reset.EAX_VALID = false ∧ ∀ a, State.reset.BUF.get? a = none

/-- R221, in every state with both valid bits 0, so in the reset state and after a reset event: the commands that can
succeed are exactly `CC_XOR`, `CC_NEW` and `EAX_NEW` (with operands that pass their checks); the other five answer
`ST_NO_CONTEXT`, and an illegal descriptor `ST_ILLEGAL_CMD`. -/
def Obligations.CommandsAfterReset : Prop :=
  ∀ s : State, s.CC_VALID = false → s.EAX_VALID = false →
    (∀ dst src nonce text ad : Region,
      exec (.ccStream dst src) s = .next (s.raise .noContext) ∧
      exec .eaxNonceSize s = .next (s.raise .noContext) ∧
      exec .eaxOverhead s = .next (s.raise .noContext) ∧
      exec (.eaxSeal dst nonce text ad) s = .next (s.raise .noContext) ∧
      exec (.eaxOpen dst nonce text ad) s = .next (s.raise .noContext)) ∧
    (∀ ws : Descriptor, ws.wellFormed = false → answer ws s = .next (s.raise .illegalCmd)) ∧
    ∀ (rounds counter tagSize : Word) (key : Vector Word 8) (nonce : Vector Word 3) (dst src : Region),
      ExecGives (.ccXor rounds counter key nonce dst src) s (fun P => CcXorAccepts P rounds dst src)
        (fun _ t => lastStatus t = some .ok) ∧
      ExecGives (.ccNew rounds key nonce) s (fun _ => ValidRounds rounds) (fun _ t => lastStatus t = some .ok) ∧
      ExecGives (.eaxNew tagSize) s (fun P => EaxNewAccepts P tagSize) (fun _ t => lastStatus t = some .ok)

/-- R8, R58, R63: what was written is read back, whatever the draw, and every other byte keeps its value. -/
def Obligations.ReadAfterWrite : Prop :=
  ∀ (m : Memory) (d a : Nat) (bytes : List Byte),
    (m.writeBytes a bytes).readBytes d a bytes.length = bytes ∧
    ∀ x, (x < a ∨ a + bytes.length ≤ x) → (m.writeBytes a bytes).get? x = m.get? x

/-! Invariants -/

/-- R20, R50: every step keeps memory in its canonical form and inside `BUF`. -/
def Obligations.StepKeepsMemory : Prop :=
  ∀ s t : State, MemInv Config.sizes s → step s = .next t → MemInv Config.sizes t

/-- The memory of the reset state is canonical and inside `BUF`. -/
def Obligations.ResetMemory : Prop := MemInv Config.sizes State.reset

/-- R25, R27: every step keeps the stream context in place: once valid, it stands at some position of some keystream, of
a valid round count. -/
def Obligations.StepKeepsStreamPosition : Prop := ∀ s t : State, StreamInv s → step s = .next t → StreamInv t

/-- The reset state meets the invariant of the stream context. -/
def Obligations.ResetStreamPosition : Prop := StreamInv State.reset

/-- R20, R31: every step keeps `CTR` and `KS` at `B` bytes and, once the context is valid, the tag size in `1..B`. -/
def Obligations.StepKeepsEaxContext : Prop :=
  ∀ s t : State, EaxInv Config.sizes s → step s = .next t → EaxInv Config.sizes t

/-- The reset state meets the invariant of the EAX context. -/
def Obligations.ResetEaxContext : Prop := EaxInv Config.sizes State.reset
end

