-- ==== Sys2Proof/Laws/State.lean ====
section
/-! SUPPORT. One lemma per field of State per named update of it: what a response, a raised status, a descriptor put on the
command port and a re-keyed cipher leave alone, and what they write. Then the sizes, which no re-keying changes. -/

namespace Sys2Proof.Machine

@[simp] theorem respond_CC_VALID (s : State) (st : Status) (v : Word) (tag : List Byte) : (s.respond st v tag).CC_VALID = s.CC_VALID := rfl
@[simp] theorem respond_S (s : State) (st : Status) (v : Word) (tag : List Byte) : (s.respond st v tag).S = s.S := rfl
@[simp] theorem respond_KB (s : State) (st : Status) (v : Word) (tag : List Byte) : (s.respond st v tag).KB = s.KB := rfl
@[simp] theorem respond_OFF (s : State) (st : Status) (v : Word) (tag : List Byte) : (s.respond st v tag).OFF = s.OFF := rfl
@[simp] theorem respond_ROUNDS (s : State) (st : Status) (v : Word) (tag : List Byte) : (s.respond st v tag).ROUNDS = s.ROUNDS := rfl
@[simp] theorem respond_EAX_VALID (s : State) (st : Status) (v : Word) (tag : List Byte) : (s.respond st v tag).EAX_VALID = s.EAX_VALID := rfl
@[simp] theorem respond_TAGSIZE (s : State) (st : Status) (v : Word) (tag : List Byte) : (s.respond st v tag).TAGSIZE = s.TAGSIZE := rfl
@[simp] theorem respond_CTR (s : State) (st : Status) (v : Word) (tag : List Byte) : (s.respond st v tag).CTR = s.CTR := rfl
@[simp] theorem respond_KS (s : State) (st : Status) (v : Word) (tag : List Byte) : (s.respond st v tag).KS = s.KS := rfl
@[simp] theorem respond_BUF (s : State) (st : Status) (v : Word) (tag : List Byte) : (s.respond st v tag).BUF = s.BUF := rfl
@[simp] theorem respond_attached (s : State) (st : Status) (v : Word) (tag : List Byte) : (s.respond st v tag).attached = s.attached := rfl
@[simp] theorem respond_hostMoves (s : State) (st : Status) (v : Word) (tag : List Byte) : (s.respond st v tag).hostMoves = s.hostMoves := rfl
@[simp] theorem respond_portLog (s : State) (st : Status) (v : Word) (tag : List Byte) : (s.respond st v tag).portLog = s.portLog := rfl
@[simp] theorem respond_draws (s : State) (st : Status) (v : Word) (tag : List Byte) : (s.respond st v tag).draws = s.draws := rfl
@[simp] theorem respond_respPort (s : State) (st : Status) (v : Word) (tag : List Byte) :
    (s.respond st v tag).respPort = s.respPort ++ [⟨st, v, tag⟩] := rfl

@[simp] theorem raise_CC_VALID (s : State) (st : Status) : (s.raise st).CC_VALID = s.CC_VALID := rfl
@[simp] theorem raise_S (s : State) (st : Status) : (s.raise st).S = s.S := rfl
@[simp] theorem raise_KB (s : State) (st : Status) : (s.raise st).KB = s.KB := rfl
@[simp] theorem raise_OFF (s : State) (st : Status) : (s.raise st).OFF = s.OFF := rfl
@[simp] theorem raise_ROUNDS (s : State) (st : Status) : (s.raise st).ROUNDS = s.ROUNDS := rfl
@[simp] theorem raise_EAX_VALID (s : State) (st : Status) : (s.raise st).EAX_VALID = s.EAX_VALID := rfl
@[simp] theorem raise_TAGSIZE (s : State) (st : Status) : (s.raise st).TAGSIZE = s.TAGSIZE := rfl
@[simp] theorem raise_CTR (s : State) (st : Status) : (s.raise st).CTR = s.CTR := rfl
@[simp] theorem raise_KS (s : State) (st : Status) : (s.raise st).KS = s.KS := rfl
@[simp] theorem raise_BUF (s : State) (st : Status) : (s.raise st).BUF = s.BUF := rfl
@[simp] theorem raise_attached (s : State) (st : Status) : (s.raise st).attached = s.attached := rfl
@[simp] theorem raise_hostMoves (s : State) (st : Status) : (s.raise st).hostMoves = s.hostMoves := rfl
@[simp] theorem raise_portLog (s : State) (st : Status) : (s.raise st).portLog = s.portLog := rfl
@[simp] theorem raise_draws (s : State) (st : Status) : (s.raise st).draws = s.draws := rfl
@[simp] theorem raise_respPort (s : State) (st : Status) : (s.raise st).respPort = s.respPort ++ [⟨st, 0, []⟩] := rfl

@[simp] theorem withDescriptor_CC_VALID (s : State) (ws : Descriptor) : (s.withDescriptor ws).CC_VALID = s.CC_VALID := rfl
@[simp] theorem withDescriptor_S (s : State) (ws : Descriptor) : (s.withDescriptor ws).S = s.S := rfl
@[simp] theorem withDescriptor_KB (s : State) (ws : Descriptor) : (s.withDescriptor ws).KB = s.KB := rfl
@[simp] theorem withDescriptor_OFF (s : State) (ws : Descriptor) : (s.withDescriptor ws).OFF = s.OFF := rfl
@[simp] theorem withDescriptor_ROUNDS (s : State) (ws : Descriptor) : (s.withDescriptor ws).ROUNDS = s.ROUNDS := rfl
@[simp] theorem withDescriptor_EAX_VALID (s : State) (ws : Descriptor) : (s.withDescriptor ws).EAX_VALID = s.EAX_VALID := rfl
@[simp] theorem withDescriptor_TAGSIZE (s : State) (ws : Descriptor) : (s.withDescriptor ws).TAGSIZE = s.TAGSIZE := rfl
@[simp] theorem withDescriptor_CTR (s : State) (ws : Descriptor) : (s.withDescriptor ws).CTR = s.CTR := rfl
@[simp] theorem withDescriptor_KS (s : State) (ws : Descriptor) : (s.withDescriptor ws).KS = s.KS := rfl
@[simp] theorem withDescriptor_BUF (s : State) (ws : Descriptor) : (s.withDescriptor ws).BUF = s.BUF := rfl
@[simp] theorem withDescriptor_attached (s : State) (ws : Descriptor) : (s.withDescriptor ws).attached = s.attached := rfl
@[simp] theorem withDescriptor_portLog (s : State) (ws : Descriptor) : (s.withDescriptor ws).portLog = s.portLog := rfl
@[simp] theorem withDescriptor_draws (s : State) (ws : Descriptor) : (s.withDescriptor ws).draws = s.draws := rfl
@[simp] theorem withDescriptor_respPort (s : State) (ws : Descriptor) : (s.withDescriptor ws).respPort = s.respPort := rfl
@[simp] theorem withDescriptor_hostMoves (s : State) (ws : Descriptor) :
    (s.withDescriptor ws).hostMoves = .issue ws :: s.hostMoves := rfl

@[simp] theorem rekey_CC_VALID (key : Nat) (s : State) : (rekey key s).CC_VALID = s.CC_VALID := rfl
@[simp] theorem rekey_S (key : Nat) (s : State) : (rekey key s).S = s.S := rfl
@[simp] theorem rekey_KB (key : Nat) (s : State) : (rekey key s).KB = s.KB := rfl
@[simp] theorem rekey_OFF (key : Nat) (s : State) : (rekey key s).OFF = s.OFF := rfl
@[simp] theorem rekey_ROUNDS (key : Nat) (s : State) : (rekey key s).ROUNDS = s.ROUNDS := rfl
@[simp] theorem rekey_EAX_VALID (key : Nat) (s : State) : (rekey key s).EAX_VALID = s.EAX_VALID := rfl
@[simp] theorem rekey_TAGSIZE (key : Nat) (s : State) : (rekey key s).TAGSIZE = s.TAGSIZE := rfl
@[simp] theorem rekey_CTR (key : Nat) (s : State) : (rekey key s).CTR = s.CTR := rfl
@[simp] theorem rekey_KS (key : Nat) (s : State) : (rekey key s).KS = s.KS := rfl
@[simp] theorem rekey_BUF (key : Nat) (s : State) : (rekey key s).BUF = s.BUF := rfl
@[simp] theorem rekey_hostMoves (key : Nat) (s : State) : (rekey key s).hostMoves = s.hostMoves := rfl
@[simp] theorem rekey_respPort (key : Nat) (s : State) : (rekey key s).respPort = s.respPort := rfl
@[simp] theorem rekey_portLog (key : Nat) (s : State) : (rekey key s).portLog = s.portLog := rfl
@[simp] theorem rekey_draws (key : Nat) (s : State) : (rekey key s).draws = s.draws := rfl
@[simp] theorem rekey_attached (key : Nat) (s : State) : (rekey key s).attached = key := rfl

@[simp] theorem params_sizes (s : State) : s.params.toSizes = Config.sizes := rfl

end Sys2Proof.Machine
end

