-- ==== Sys2Proof/Laws/Failures.lean ====
section
/-! SUPPORT. The entry checks: when each command's list of checks fails nothing, and the two outcomes of a guarded
command. -/

namespace Sys2Proof.Machine

theorem guarded_none {s effect : State} {f : Option Status} (h : f = none) : s.guarded f effect = effect := by
  subst h; rfl

theorem guarded_some {s effect : State} {f : Option Status} {st : Status} (h : f = some st) :
    s.guarded f effect = s.raise st := by
  subst h; rfl

/-- A guarded command raises, or has its effect. -/
theorem guarded_cases (s effect : State) (f : Option Status) :
    (f = none ∧ s.guarded f effect = effect) ∨ ∃ st, f = some st ∧ s.guarded f effect = s.raise st := by
  cases f with
  | none => exact .inl ⟨rfl, rfl⟩
  | some st => exact .inr ⟨st, rfl, rfl⟩

theorem firstFailure_cons (b : Bool) (st : Status) (rest : List (Bool × Status)) :
    firstFailure ((b, st) :: rest) = if b then some st else firstFailure rest := rfl

/-- No check fails exactly when every condition is false. -/
theorem firstFailure_eq_none {l : List (Bool × Status)} : firstFailure l = none ↔ ∀ c ∈ l, c.1 = false := by
  induction l with
  | nil => simp [firstFailure]
  | cons c l ih =>
    obtain ⟨b, st⟩ := c
    cases b <;> simp [firstFailure_cons, ih]

/-- The status a command raises is one of its checks'. -/
theorem mem_of_firstFailure {l : List (Bool × Status)} {st : Status} (h : firstFailure l = some st) :
    st ∈ l.map (·.2) := by
  induction l with
  | nil => simp [firstFailure] at h
  | cons c l ih =>
    obtain ⟨b, st'⟩ := c
    cases b
    · exact List.mem_cons_of_mem _ (ih (by simpa [firstFailure_cons] using h))
    · have : st' = st := by simpa [firstFailure_cons] using h
      simp [this]

@[simp] theorem roundsValid_iff (w : Word) : roundsValid w = true ↔ ValidRounds w := by
  simp [roundsValid, ValidRounds, roundsOf]

@[simp] theorem regionInrange_iff (P : Params) (r : Region) : regionInrange P r = true ↔ InBuf P r := by
  simp [regionInrange, Machine.inrange, InBuf]

@[simp] theorem aliasOther_iff (dst n : Nat) (r : Region) : aliasOther dst n r = false ↔ Apart dst n r := by
  simp only [aliasOther, overlap, Apart, decide_eq_false_iff_not]
  omega

@[simp] theorem aliasText_iff (dst n : Nat) (r : Region) : aliasText dst n r = false ↔ InPlaceOrApart dst n r := by
  simp only [aliasText, overlap, InPlaceOrApart, Apart, Bool.and_eq_false_iff, decide_eq_false_iff_not]
  omega

/-- Accepted as the checks say, and as the rule says: `CC_XOR`. -/
theorem ccXorFailure_none {P : Params} {rounds : Word} {dst src : Region} :
    ccXorFailure P rounds dst src = none ↔ CcXorAccepts P rounds dst src := by
  simp [ccXorFailure, firstFailure_eq_none, CcXorAccepts]

theorem ccNewFailure_none {rounds : Word} : ccNewFailure rounds = none ↔ ValidRounds rounds := by
  simp [ccNewFailure, firstFailure_eq_none]

theorem ccStreamFailure_none {P : Params} {dst src : Region} {s : State} :
    ccStreamFailure P dst src s = none ↔ CcStreamAccepts P dst src s := by
  simp [ccStreamFailure, firstFailure_eq_none, CcStreamAccepts]

theorem eaxNewFailure_none {P : Params} {tagSize : Word} : eaxNewFailure P tagSize = none ↔ EaxNewAccepts P tagSize := by
  simp only [eaxNewFailure, firstFailure_eq_none, EaxNewAccepts, tagSizeOf, List.forall_mem_cons, List.not_mem_nil,
    false_imp_iff, implies_true, and_true, Bool.not_eq_false']
  refine and_congr_right fun _ => ?_
  constructor
  · intro h
    have := of_decide_eq_false h
    omega
  · intro h
    exact decide_eq_false (by omega)

theorem eaxQueryFailure_none {s : State} : eaxQueryFailure s = none ↔ s.EAX_VALID = true := by
  simp [eaxQueryFailure, firstFailure_eq_none]

theorem eaxSealFailure_none {P : Params} {dst nonce text ad : Region} {s : State} :
    eaxSealFailure P dst nonce text ad s = none ↔ SealAccepts P dst nonce text ad s := by
  simp [eaxSealFailure, firstFailure_eq_none, SealAccepts, EaxRanges, and_assoc]

theorem eaxOpenFailure_none {P : Params} {dst nonce text ad : Region} {s : State} :
    eaxOpenFailure P dst nonce text ad s = none ↔ OpenAccepts P dst nonce text ad s := by
  simp [eaxOpenFailure, firstFailure_eq_none, OpenAccepts, EaxRanges, and_assoc]

/-- No entry check raises `ST_OK`. -/
theorem failure_ne_ok {l : List (Bool × Status)} {st : Status} (h : firstFailure l = some st)
    (hl : Status.ok ∉ l.map (·.2)) : st ≠ .ok := by
  rintro rfl
  exact hl (mem_of_firstFailure h)

/-- `exec` is `runAt` at the attached parameters. -/
theorem exec_eq_runAt (i : Instr) (s : State) : exec i s = .next (runAt s.params i s) := by
  cases i <;> rfl

/-- A move of `moveAt` is the machine's, but for the write outside `BUF`. -/
theorem takeMove_eq_moveAt (m : HostMove) (s : State)
    (h : ∀ a bytes, m = .write a bytes → a + bytes.length ≤ Config.sizes.BUF_SIZE) :
    takeMove m s = .next (moveAt Config.params m s) := by
  cases m with
  | issue ws => simp only [takeMove, answer, moveAt]; split <;> simp [exec_eq_runAt, State.params, *]
  | write a bytes => simp [takeMove, hostWrite, moveAt, Config.params, h a bytes rfl]
  | reset => rfl
  | rekey key => rfl

/-- What holds at all parameters holds of `exec`. -/
theorem ExecGives.of_runAt {i : Instr} {s : State} {given : Params → Prop} {gives : Params → State → Prop}
    (h : ∀ P, given P → gives P (runAt P i s)) : ExecGives i s given gives :=
  ⟨fun hg => ⟨_, exec_eq_runAt i s, h _ hg⟩, h⟩

end Sys2Proof.Machine
end

