-- ==== Sys2Proof/Laws/Memory.lean ====
section
/-! SUPPORT. Memory: reading after writing, the canonical form, and the XOR of a span with a keystream. -/

namespace Sys2Proof.Machine

namespace Memory

/-- Read after one write. -/
theorem get?_set (m : Memory) (a : Nat) (v : Byte) (x : Nat) :
    (m.set a v).get? x = if x = a then some v else m.get? x := by
  induction m with
  | nil => simp [Memory.set, Memory.get?]
  | cons c m ih =>
    obtain ⟨b, w⟩ := c
    simp only [Memory.set]
    split
    · simp [Memory.get?]
    · split
      · subst_vars
        simp only [Memory.get?]
        split <;> rfl
      · simp only [Memory.get?, ih]
        split
        · subst_vars
          split
          · omega
          · rfl
        · rfl

/-- The addresses after one write. -/
theorem mem_set {m : Memory} {a : Nat} {v : Byte} {c : Host.Cell} (h : c ∈ m.set a v) : c = (a, v) ∨ c ∈ m := by
  induction m with
  | nil => simpa [Memory.set] using h
  | cons d m ih =>
    obtain ⟨b, w⟩ := d
    simp only [Memory.set] at h
    split at h
    · simpa using h
    · split at h
      · rcases List.mem_cons.1 h with h | h
        · exact .inl h
        · exact .inr (List.mem_cons_of_mem _ h)
      · rcases List.mem_cons.1 h with h | h
        · exact .inr (h ▸ List.mem_cons_self)
        · exact (ih h).imp id (List.mem_cons_of_mem _)

/-- A write keeps the canonical form. -/
theorem wf_set {m : Memory} (h : m.wf) (a : Nat) (v : Byte) : (m.set a v).wf := by
  induction m with
  | nil => simp [Memory.set]
  | cons d m ih =>
    obtain ⟨b, w⟩ := d
    obtain ⟨hb, hm⟩ := List.pairwise_cons.1 h
    simp only [Memory.set]
    split
    · rename_i hab
      refine List.pairwise_cons.2 ⟨fun c hc => ?_, h⟩
      rcases List.mem_cons.1 hc with rfl | hc
      · exact hab
      · exact hab.trans (hb c hc)
    · split
      · subst_vars
        exact List.pairwise_cons.2 ⟨hb, hm⟩
      · refine List.pairwise_cons.2 ⟨fun c hc => ?_, ih hm⟩
        rcases mem_set hc with rfl | hc
        · simp only; omega
        · exact hb c hc

/-- Read after a write of several bytes. -/
theorem get?_writeBytes (bs : List Byte) : ∀ (m : Memory) (a x : Nat),
    (m.writeBytes a bs).get? x = if a ≤ x ∧ x < a + bs.length then bs[x - a]? else m.get? x := by
  induction bs with
  | nil =>
    intro m a x
    rw [if_neg (by simp)]
    rfl
  | cons b bs ih =>
    intro m a x
    rw [Memory.writeBytes, ih, get?_set, List.length_cons]
    by_cases hx : x = a
    · subst hx
      simp
    · by_cases hi : a + 1 ≤ x ∧ x < a + 1 + bs.length
      · rw [if_pos hi, if_pos (by omega)]
        obtain ⟨k, rfl⟩ : ∃ k, x = a + 1 + k := ⟨x - (a + 1), by omega⟩
        rw [show a + 1 + k - a = k + 1 by omega, show a + 1 + k - (a + 1) = k by omega]
        simp
      · rw [if_neg hi, if_neg hx, if_neg (by omega)]

/-- A write of several bytes keeps the canonical form. -/
theorem wf_writeBytes (bs : List Byte) : ∀ {m : Memory} (a : Nat), m.wf → (m.writeBytes a bs).wf := by
  induction bs with
  | nil => intro m a h; exact h
  | cons b bs ih => intro m a h; exact ih (a + 1) (wf_set h a b)

/-- The cells after a write of several bytes. -/
theorem mem_writeBytes (bs : List Byte) : ∀ {m : Memory} {a : Nat} {c : Host.Cell},
    c ∈ m.writeBytes a bs → (a ≤ c.1 ∧ c.1 < a + bs.length) ∨ c ∈ m := by
  induction bs with
  | nil => intro m a c h; exact .inr h
  | cons b bs ih =>
    intro m a c h
    rw [Memory.writeBytes] at h
    rw [List.length_cons]
    rcases ih h with h | h
    · exact .inl ⟨by omega, by omega⟩
    · rcases mem_set h with rfl | h
      · exact .inl ⟨by simp, by simp⟩
      · exact .inr h

@[simp] theorem readBytes_length (m : Memory) (d n : Nat) : ∀ a, (m.readBytes d a n).length = n := by
  induction n with
  | zero => intro a; rfl
  | succ n ih => intro a; simp [Memory.readBytes, ih]

/-- One byte of a string that was read. -/
theorem readBytes_getElem (m : Memory) (d : Nat) : ∀ (n a i : Nat) (h : i < (m.readBytes d a n).length),
    (m.readBytes d a n)[i] = m.readByte d (a + i) := by
  intro n
  induction n with
  | zero => intro a i h; simp at h
  | succ n ih =>
    intro a i h
    cases i with
    | zero => rfl
    | succ i =>
      simp only [Memory.readBytes, List.getElem_cons_succ]
      rw [ih, show a + 1 + i = a + (i + 1) by omega]

/-- A string that was read, as a table of its bytes. -/
theorem readBytes_eq_map (m : Memory) (d a n : Nat) :
    m.readBytes d a n = (List.range n).map fun i => m.readByte d (a + i) := by
  apply List.ext_getElem
  · simp
  · intro i h1 h2
    simp [readBytes_getElem]

/-- Reading a string in two pieces. -/
theorem readBytes_append (m : Memory) (d a k n : Nat) :
    m.readBytes d a (k + n) = m.readBytes d a k ++ m.readBytes d (a + k) n := by
  simp [readBytes_eq_map, List.range_add, Nat.add_assoc, Function.comp_def]

/-- What is read depends on the bytes of the range only. -/
theorem readBytes_congr {m m' : Memory} {d d' a a' n : Nat}
    (h : ∀ i, i < n → m.readByte d (a + i) = m'.readByte d' (a' + i)) : m.readBytes d a n = m'.readBytes d' a' n := by
  rw [readBytes_eq_map, readBytes_eq_map]
  exact List.map_congr_left fun i hi => h i (List.mem_range.1 hi)

theorem readByte_of_get? {m : Memory} {d a : Nat} {v : Byte} (h : m.get? a = some v) : m.readByte d a = v := by
  simp [Memory.readByte, h]

theorem readByte_congr {m m' : Memory} {d a : Nat} (h : m.get? a = m'.get? a) : m.readByte d a = m'.readByte d a := by
  simp [Memory.readByte, h]

/-- A byte that holds a value reads the same whatever the draw. -/
theorem readByte_draw {m : Memory} {a : Nat} (h : (m.get? a).isSome) (d d' : Nat) : m.readByte d a = m.readByte d' a := by
  obtain ⟨v, hv⟩ := Option.isSome_iff_exists.1 h
  rw [readByte_of_get? hv, readByte_of_get? hv]

/-- Nothing below the first cell of a canonical memory. -/
theorem get?_eq_none {m : Memory} {a : Nat} (h : ∀ c ∈ m, a < c.1) : m.get? a = none := by
  induction m with
  | nil => rfl
  | cons c m ih =>
    obtain ⟨b, w⟩ := c
    have hb : a < b := h (b, w) List.mem_cons_self
    rw [Memory.get?, if_neg (by omega)]
    exact ih fun c hc => h c (List.mem_cons_of_mem _ hc)

/-- Two canonical memories with the same bytes are the same list. -/
theorem ext_get? : ∀ {m m' : Memory}, m.wf → m'.wf → (∀ a, m.get? a = m'.get? a) → m = m' := by
  intro m
  induction m with
  | nil =>
    intro m' _ _ h
    cases m' with
    | nil => rfl
    | cons c m' => have := h c.1; simp [Memory.get?] at this
  | cons c m ih =>
    obtain ⟨a, v⟩ := c
    intro m' hm hm' h
    obtain ⟨ha, hm⟩ := List.pairwise_cons.1 hm
    cases m' with
    | nil => have := h a; simp [Memory.get?] at this
    | cons c' m' =>
      obtain ⟨b, w⟩ := c'
      obtain ⟨hb, hm2⟩ := List.pairwise_cons.1 hm'
      have key : ∀ {x y : Nat} {u t : Byte} {p q : Memory}, (∀ c ∈ q, y < c.1) → x < y →
          Memory.get? ((x, u) :: p) x = Memory.get? ((y, t) :: q) x → False := by
        intro x y u t p q hq hxy he
        rw [get?_eq_none (m := (y, t) :: q)] at he
        · simp [Memory.get?] at he
        · intro c hc
          rcases List.mem_cons.1 hc with rfl | hc
          · exact hxy
          · exact hxy.trans (hq c hc)
      have hab : a = b := by
        rcases Nat.lt_trichotomy a b with hlt | heq | hgt
        · exact (key hb hlt (h a)).elim
        · exact heq
        · exact (key ha hgt (h b).symm).elim
      subst hab
      have hvw : v = w := by have := h a; simpa [Memory.get?] using this
      subst hvw
      refine congrArg _ (ih hm hm2 fun x => ?_)
      by_cases hx : x = a
      · subst hx
        rw [get?_eq_none ha, get?_eq_none hb]
      · have := h x
        simpa [Memory.get?, hx] using this

/-- Everything one chunk of an XOR loop does. -/
theorem xorInto_spec (m : Memory) (d dst src n : Nat) (ks : List Byte) (h : n ≤ ks.length) :
    XoredInto m (m.xorInto d dst src n ks) d dst src n (fun p => ks.getD p 0) := by
  intro a
  have hl : (xorBytes (m.readBytes d src n) ks).length = n := by simp [xorBytes]; omega
  rw [Memory.xorInto, get?_writeBytes, hl]
  split
  · rename_i ha
    have hk : a - dst < ks.length := by omega
    rw [List.getElem?_eq_getElem (by rw [hl]; omega)]
    simp [xorBytes, readBytes_getElem, hk]
  · rfl

theorem wf_xorInto {m : Memory} (hm : m.wf) (d dst src n : Nat) (ks : List Byte) : (m.xorInto d dst src n ks).wf :=
  wf_writeBytes _ _ hm

theorem mem_xorInto {m : Memory} {d dst src n : Nat} {ks : List Byte} {c : Host.Cell}
    (h : c ∈ m.xorInto d dst src n ks) : (dst ≤ c.1 ∧ c.1 < dst + n) ∨ c ∈ m := by
  rcases mem_writeBytes _ h with h | h
  · left
    have : (xorBytes (m.readBytes d src n) ks).length ≤ n := by simp [xorBytes]
    omega
  · exact .inr h

end Memory

theorem XoredInto.zero (m : Memory) (d dst src : Nat) (ks : Nat → Byte) : XoredInto m m d dst src 0 ks := by
  intro a
  rw [if_neg (by omega)]

/-- Spans of one XOR loop that neither smear nor differ (R57): exactly in place, or apart. -/
def NoSmear (dst src n : Nat) : Prop := dst = src ∨ dst + n ≤ src ∨ src + n ≤ dst

/-- A byte of the source that is still to come is as it was before the first `i` bytes were written. -/
theorem XoredInto.source {m m1 : Memory} {d dst src i n : Nat} {ks : Nat → Byte} (h : XoredInto m m1 d dst src i ks)
    (hs : NoSmear dst src n) {p : Nat} (hp : i ≤ p) (hpn : p < n) : m1.get? (src + p) = m.get? (src + p) := by
  rw [h, if_neg]
  rcases hs with hs | hs | hs <;> omega

/-- Two spans, one after the other, are one span. -/
theorem XoredInto.append {m m1 m2 : Memory} {d dst src i j : Nat} {ks ks' : Nat → Byte}
    (h1 : XoredInto m m1 d dst src i ks) (h2 : XoredInto m1 m2 d (dst + i) (src + i) j ks')
    (hs : NoSmear dst src (i + j)) :
    XoredInto m m2 d dst src (i + j) (fun p => if p < i then ks p else ks' (p - i)) := by
  intro a
  rw [h2]
  by_cases h : dst + i ≤ a ∧ a < dst + i + j
  · dsimp only
    rw [if_pos h, if_pos (by omega), if_neg (by omega)]
    rw [show src + i + (a - (dst + i)) = src + (a - dst) by omega, show a - dst - i = a - (dst + i) by omega]
    rw [Memory.readByte_congr (h1.source hs (p := a - dst) (by omega) (by omega))]
  · rw [if_neg h, h1]
    by_cases h' : dst ≤ a ∧ a < dst + i
    · dsimp only
      rw [if_pos h', if_pos (by omega), if_pos (by omega)]
    · rw [if_neg h', if_neg (by omega)]

theorem XoredInto.congr {m m' : Memory} {d dst src n : Nat} {ks ks' : Nat → Byte} (h : XoredInto m m' d dst src n ks)
    (hk : ∀ p, p < n → ks p = ks' p) : XoredInto m m' d dst src n ks' := by
  intro a
  rw [h]
  split
  · rw [hk _ (by omega)]
  · rfl

/-- The bytes of the destination after the XOR, as a string. -/
theorem XoredInto.read {m m' : Memory} {d dst src n : Nat} {ks : Nat → Byte} (h : XoredInto m m' d dst src n ks)
    (d' : Nat) : m'.readBytes d' dst n = xorBytes (m.readBytes d src n) ((List.range n).map ks) := by
  apply List.ext_getElem
  · simp [xorBytes]
  · intro i h1 h2
    have hi : i < n := by simpa using h1
    rw [Memory.readBytes_getElem, Memory.readByte, h, if_pos (by omega)]
    simp [xorBytes, Memory.readBytes_getElem]

/-- The memory of the reset state is in canonical form. -/
theorem wf_reset : State.reset.BUF.wf := List.Pairwise.nil

end Sys2Proof.Machine
end

