-- ==== Sys2Proof/Laws/ChaCha.lean ====
section
/-! SUPPORT. The ChaCha loops: the keystream of a state, and what the block loop, the one-shot XOR and the three steps of
the stream cipher do to memory and to the context. -/

namespace Sys2Proof.Machine

theorem bumpCounter_init (key : Vector Word 8) (nonce : Vector Word 3) (c : Word) :
    bumpCounter (chachaInit key nonce c) = chachaInit key nonce (c + 1) := rfl

/-- Blocks generated one after another count up from the initial counter. -/
theorem bumpCounter_iterate_init (key : Vector Word 8) (nonce : Vector Word 3) (q : Nat) : ∀ c : Word,
    bumpCounter^[q] (chachaInit key nonce c) = chachaInit key nonce (c + BitVec.ofNat 32 q) := by
  induction q with
  | zero => intro c; simp
  | succ q ih =>
    intro c
    rw [Function.iterate_succ_apply, bumpCounter_init, ih]
    congr 1
    apply BitVec.eq_of_toNat_eq
    simp [BitVec.toNat_add]
    omega

/-- The keystream that a ChaCha state goes on to produce, byte `p`. -/
def stateStream (x : ChaState) (rounds p : Nat) : Byte :=
  (blockOf (bumpCounter^[p / 64] x) rounds)[p % 64]'(Nat.mod_lt _ (by decide))

theorem stateStream_init (key : Vector Word 8) (nonce : Vector Word 3) (c : Word) (rounds p : Nat) :
    stateStream (chachaInit key nonce c) rounds p = kstream key nonce c rounds p := by
  simp only [stateStream, kstream, ksBlock, bumpCounter_iterate_init]

theorem stateStream_iterate (x : ChaState) (rounds q p : Nat) :
    stateStream (bumpCounter^[q] x) rounds p = stateStream x rounds (64 * q + p) := by
  have h1 : (64 * q + p) / 64 = p / 64 + q := by omega
  have h2 : (64 * q + p) % 64 = p % 64 := by omega
  simp only [stateStream, h1, h2, Function.iterate_add_apply]

theorem block_getD (b : Block) (p : Nat) (h : p < 64) : b.toList.getD p 0 = b[p] := by
  simp [List.getD_eq_getElem?_getD, h]

theorem blockOf_getD (x : ChaState) (rounds p : Nat) (h : p < 64) :
    (blockOf x rounds).toList.getD p 0 = stateStream x rounds p := by
  rw [block_getD _ _ h]
  simp only [stateStream, Nat.div_eq_of_lt h, Nat.mod_eq_of_lt h]
  rfl

/-- One chunk of at most 64 bytes. -/
theorem xorInto_block (m : Memory) (d dst src n : Nat) (x : ChaState) (rounds : Nat) (h : n ≤ 64) :
    XoredInto m (m.xorInto d dst src n (blockOf x rounds).toList) d dst src n (stateStream x rounds) :=
  (Memory.xorInto_spec m d dst src n _ (by simpa using h)).congr fun p hp => blockOf_getD x rounds p (by omega)

theorem xorBlocks_state (d rounds q : Nat) : ∀ (dst src : Nat) (x : ChaState) (m : Memory),
    (xorBlocks d rounds q dst src x m).1 = bumpCounter^[q] x := by
  induction q with
  | zero => intros; rfl
  | succ q ih => intro dst src x m; rw [xorBlocks]; exact ih _ _ _ _

/-- Everything the loop over full chunks does to memory. -/
theorem xorBlocks_spec (d rounds q : Nat) : ∀ (dst src : Nat) (x : ChaState) (m : Memory), NoSmear dst src (64 * q) →
    XoredInto m (xorBlocks d rounds q dst src x m).2 d dst src (64 * q) (stateStream x rounds) := by
  induction q with
  | zero => intros; exact XoredInto.zero _ _ _ _ _
  | succ q ih =>
    intro dst src x m hs
    have hs' : NoSmear (dst + 64) (src + 64) (64 * q) := by rcases hs with h | h | h <;> simp only [NoSmear] <;> omega
    have h2 := ih (dst + 64) (src + 64) (bumpCounter x) (m.xorInto d dst src 64 (blockOf x rounds).toList) hs'
    have h := (xorInto_block m d dst src 64 x rounds le_rfl).append h2
      (by rwa [show 64 + 64 * q = 64 * (q + 1) by omega])
    rw [show 64 * (q + 1) = 64 + 64 * q by omega]
    refine h.congr fun p _ => ?_
    split
    · rfl
    · have := stateStream_iterate x rounds 1 (p - 64)
      rw [Function.iterate_one] at this
      rw [this, show 64 * 1 + (p - 64) = p by omega]

/-- The one-shot XOR in closed form (R130). -/
theorem ccXorMem_spec (d rounds : Nat) (x : ChaState) (dst src n : Nat) (m : Memory) (hs : NoSmear dst src n) :
    XoredInto m (ccXorMem d rounds x dst src n m) d dst src n (stateStream x rounds) := by
  have hs' : NoSmear dst src (64 * (n / 64)) := by rcases hs with h | h | h <;> simp only [NoSmear] <;> omega
  have h1 := xorBlocks_spec d rounds (n / 64) dst src x m hs'
  simp only [ccXorMem, xorBlocks_state]
  split
  · have h2 := xorInto_block (xorBlocks d rounds (n / 64) dst src x m).2 d (dst + 64 * (n / 64)) (src + 64 * (n / 64))
      (n % 64) (bumpCounter^[n / 64] x) rounds (by omega)
    have h := h1.append h2 (by rwa [show 64 * (n / 64) + n % 64 = n by omega])
    rw [show 64 * (n / 64) + n % 64 = n by omega] at h
    refine h.congr fun p hp => ?_
    split
    · rfl
    · rw [stateStream_iterate, show 64 * (n / 64) + (p - 64 * (n / 64)) = p by omega]
  · rwa [show 64 * (n / 64) = n by omega] at h1

/-- Everything step 1 of the stream cipher does. -/
theorem streamLeftover_spec {key : Vector Word 8} {nonce : Vector Word 3} {rounds p : Nat} {s : State}
    (h : AtPosition key nonce rounds p s) (dst src n : Nat) :
    AtPosition key nonce rounds (p + leftoverLen n s) (streamLeftover dst src n s) ∧
    XoredInto s.BUF (streamLeftover dst src n s).BUF s.draws dst src (leftoverLen n s)
      (fun j => kstream key nonce 0 rounds (p + j)) ∧
    leftoverLen n s ≤ n ∧ ((p + leftoverLen n s) % 64 ≠ 0 → leftoverLen n s = n) := by
  obtain ⟨hv, hr, ho, hS, hK⟩ := h
  have ho64 := s.OFF.isLt
  by_cases h0 : s.OFF.val = 0
  · have hl : leftoverLen n s = 0 := by simp [leftoverLen, h0]
    have he : streamLeftover dst src n s = s := by simp [streamLeftover, h0]
    rw [hl, he]
    refine ⟨⟨hv, hr, ho, hS, hK⟩, XoredInto.zero _ _ _ _ _, by omega, fun h => ?_⟩
    omega
  · have hl : leftoverLen n s = min (64 - s.OFF.val) n := by simp [leftoverLen, h0]
    have he : streamLeftover dst src n s =
        { s with
          BUF := s.BUF.xorInto s.draws dst src (min (64 - s.OFF.val) n) (s.KB.toList.drop s.OFF.val)
          OFF := Fin.ofNat 64 (s.OFF.val + min (64 - s.OFF.val) n) } := by simp [streamLeftover, h0]
    rw [hl, he]
    generalize hm : min (64 - s.OFF.val) n = m
    have hm1 : m ≤ 64 - s.OFF.val := by omega
    refine ⟨⟨hv, hr, ?_, ?_, ?_⟩, ?_, by omega, ?_⟩
    · simp only [Fin.ofNat]
      omega
    · rw [hS]
      congr 2
      omega
    · intro hne
      simp only [Fin.ofNat] at hne
      rw [hK h0]
      congr 2
      omega
    · refine (Memory.xorInto_spec s.BUF s.draws dst src m _ (by simp; omega)).congr fun j hj => ?_
      rw [List.getD_eq_getElem?_getD, List.getElem?_drop, ← List.getD_eq_getElem?_getD, block_getD _ _ (by omega), hK h0]
      have h1 : (p + j) / 64 = p / 64 := by omega
      have h2 : (p + j) % 64 = s.OFF.val + j := by omega
      simp only [kstream, h1, h2, zero_add]
    · intro h
      omega

/-- Everything step 2 of the stream cipher does. -/
theorem streamBlocks_spec {key : Vector Word 8} {nonce : Vector Word 3} {rounds p : Nat} {s : State}
    (h : AtPosition key nonce rounds p s) (dst src n : Nat) (hp : p % 64 ≠ 0 → n = 0)
    (hs : NoSmear dst src (64 * (n / 64))) :
    AtPosition key nonce rounds (p + 64 * (n / 64)) (streamBlocks dst src n s) ∧
    XoredInto s.BUF (streamBlocks dst src n s).BUF s.draws dst src (64 * (n / 64))
      (fun j => kstream key nonce 0 rounds (p + j)) := by
  obtain ⟨hv, hr, ho, hS, hK⟩ := h
  refine ⟨⟨hv, hr, ?_, ?_, ?_⟩, ?_⟩
  · simp only [streamBlocks]
    omega
  · simp only [streamBlocks, xorBlocks_state, hS, bumpCounter_iterate_init]
    congr 1
    apply BitVec.eq_of_toNat_eq
    simp [BitVec.toNat_add]
    omega
  · simp only [streamBlocks]
    intro h0
    have : n = 0 := hp (by omega)
    simpa [this] using hK h0
  · have := xorBlocks_spec s.draws s.ROUNDS (n / 64) dst src s.S s.BUF hs
    refine XoredInto.congr this fun j hj => ?_
    have hp0 : p % 64 = 0 := by
      by_contra hne
      have := hp hne
      subst this
      simp at hj
    rw [hr, hS, stateStream_init]
    have h1 : (p + j) % 64 = j % 64 := by omega
    have h2 : BitVec.ofNat 32 ((p + 63) / 64) + BitVec.ofNat 32 (j / 64) = (0 : Word) + BitVec.ofNat 32 ((p + j) / 64) := by
      apply BitVec.eq_of_toNat_eq
      simp [BitVec.toNat_add]
      omega
    simp only [kstream, h1, h2]

/-- Everything step 3 of the stream cipher does. -/
theorem streamFinal_spec {key : Vector Word 8} {nonce : Vector Word 3} {rounds p : Nat} {s : State}
    (h : AtPosition key nonce rounds p s) (dst src r : Nat) (hp : p % 64 ≠ 0 → r = 0) (hr64 : r < 64) :
    AtPosition key nonce rounds (p + r) (streamFinal dst src r s) ∧
    XoredInto s.BUF (streamFinal dst src r s).BUF s.draws dst src r (fun j => kstream key nonce 0 rounds (p + j)) := by
  by_cases h0 : 0 < r
  · obtain ⟨hv, hr, ho, hS, hK⟩ := h
    have he : streamFinal dst src r s =
        { s with
          S := bumpCounter s.S
          KB := blockOf s.S s.ROUNDS
          BUF := s.BUF.xorInto s.draws dst src r (blockOf s.S s.ROUNDS).toList
          OFF := Fin.ofNat 64 r } := by simp [streamFinal, h0, chachaBlock]
    have hp0 : p % 64 = 0 := by
      by_contra hne
      exact absurd (hp hne) (by omega)
    rw [he]
    refine ⟨⟨hv, hr, ?_, ?_, ?_⟩, ?_⟩
    · simp only [Fin.ofNat]
      omega
    · simp only [hS, bumpCounter_init]
      congr 1
      apply BitVec.eq_of_toNat_eq
      simp [BitVec.toNat_add]
      omega
    · intro _
      simp only [hS, hr, ksBlock]
      congr 3
      omega
    · refine (xorInto_block s.BUF s.draws dst src r s.S s.ROUNDS (by omega)).congr fun j hj => ?_
      rw [hr, hS, stateStream_init]
      have h1 : (p + j) % 64 = j % 64 := by omega
      have h2 : BitVec.ofNat 32 ((p + 63) / 64) + BitVec.ofNat 32 (j / 64) = (0 : Word) + BitVec.ofNat 32 ((p + j) / 64) := by
        apply BitVec.eq_of_toNat_eq
        simp [BitVec.toNat_add]
        omega
      simp only [kstream, h1, h2]
  · obtain rfl : r = 0 := by omega
    have he : streamFinal dst src 0 s = s := by simp [streamFinal]
    rw [he]
    exact ⟨h, XoredInto.zero _ _ _ _ _⟩

@[simp] theorem streamLeftover_draws (dst src n : Nat) (s : State) : (streamLeftover dst src n s).draws = s.draws := by
  simp only [streamLeftover]; split <;> rfl

@[simp] theorem streamBlocks_draws (dst src n : Nat) (s : State) : (streamBlocks dst src n s).draws = s.draws := rfl

/-- Everything `CC_STREAM` does to memory and to its context (R133). -/
theorem streamXor_spec {key : Vector Word 8} {nonce : Vector Word 3} {rounds p : Nat} {s : State}
    (h : AtPosition key nonce rounds p s) (dst src n : Nat) (hs : NoSmear dst src n) :
    AtPosition key nonce rounds (p + n) (streamXor dst src n s) ∧
    XoredInto s.BUF (streamXor dst src n s).BUF s.draws dst src n (fun j => kstream key nonce 0 rounds (p + j)) := by
  obtain ⟨a1, x1, hle, hlt⟩ := streamLeftover_spec h dst src n
  have d1 := streamLeftover_draws dst src n s
  simp only [streamXor]
  generalize leftoverLen n s = i at *
  generalize streamLeftover dst src n s = s1 at *
  have hsm : ∀ j k, j + k ≤ n → NoSmear (dst + j) (src + j) k := by
    intro j k hjk
    rcases hs with h | h | h <;> simp only [NoSmear] <;> omega
  obtain ⟨a2, x2⟩ := streamBlocks_spec a1 (dst + i) (src + i) (n - i) (fun h => by have := hlt h; omega)
    (hsm _ _ (by omega))
  have d2 := streamBlocks_draws (dst + i) (src + i) (n - i) s1
  generalize streamBlocks (dst + i) (src + i) (n - i) s1 = s2 at *
  obtain ⟨a3, x3⟩ := streamFinal_spec a2 (dst + (i + 64 * ((n - i) / 64))) (src + (i + 64 * ((n - i) / 64)))
    (n - (i + 64 * ((n - i) / 64))) (fun h => by have := hlt (by omega); omega) (by omega)
  generalize streamFinal (dst + (i + 64 * ((n - i) / 64))) (src + (i + 64 * ((n - i) / 64)))
    (n - (i + 64 * ((n - i) / 64))) s2 = s3 at *
  rw [d1] at x2
  rw [d2, d1] at x3
  have hn : i + 64 * ((n - i) / 64) + (n - (i + 64 * ((n - i) / 64))) = n := by omega
  have x12 := x1.append x2 (hsm 0 _ (by omega))
  rw [Nat.add_assoc, Nat.add_assoc, ← Nat.add_assoc i, hn] at a3
  have x := x12.append x3 (hsm 0 _ (by omega))
  rw [hn] at x
  refine ⟨a3, x.congr fun j hj => ?_⟩
  split
  · split
    · rfl
    · congr 1; omega
  · congr 1; omega

end Sys2Proof.Machine
end

