-- ==== Sys2Proof/Laws/Eax.lean ====
section
/-! SUPPORT. The counter-mode core and the EAX commands' shared operations: lengths, the chunk count, and everything the
counter-mode loop does. -/

namespace Sys2Proof.Machine

@[simp] theorem incFromLast_length (l : List Byte) : (incFromLast l).length = l.length := by
  induction l with
  | nil => rfl
  | cons b l ih => simp only [incFromLast]; split <;> simp [ih]

@[simp] theorem ctrInc_length (c : List Byte) : (ctrInc c).length = c.length := by simp [ctrInc]

@[simp] theorem ctrAt_length (seed : List Byte) (q : Nat) : (ctrAt seed q).length = seed.length := by
  induction q with
  | zero => rfl
  | succ q ih => rw [ctrAt, Function.iterate_succ_apply', ctrInc_length]; exact ih

theorem ctrAt_succ (seed : List Byte) (q : Nat) : ctrAt seed (q + 1) = ctrAt (ctrInc seed) q := by
  simp [ctrAt, Function.iterate_succ_apply]

@[simp] theorem omac_length (P : Params) (t : Byte) (m : List Byte) : (omac P t m).length = P.B := P.MAC_length _

@[simp] theorem domainPrefix_length (P : Params) (t : Byte) : (domainPrefix P t).length = P.B := by
  have := P.B_pos
  simp [domainPrefix]
  omega

@[simp] theorem operand_length (s : State) (r : Region) : (s.operand r).length = r.n := by simp [State.operand]

theorem chunkCount_zero (P : Params) : chunkCount P 0 = 0 := by
  have := P.B_pos
  exact Nat.div_eq_of_lt (by omega)

theorem chunkCount_last (P : Params) {n : Nat} (h0 : 0 < n) (h : n ≤ P.B) : chunkCount P n = 1 := by
  have := P.B_pos
  exact Nat.div_eq_of_lt_le (by omega) (by omega)

theorem chunkCount_more (P : Params) {n : Nat} (h : P.B ≤ n) : chunkCount P n = chunkCount P (n - P.B) + 1 := by
  have := P.B_pos
  rw [chunkCount, chunkCount, ← Nat.add_div_right _ (by omega)]
  congr 1
  omega

/-- One chunk of the loop takes one from the chunk count. -/
theorem chunkCount_step (P : Params) {n : Nat} (h0 : 0 < n) : chunkCount P n = chunkCount P (n - min P.B n) + 1 := by
  rcases Nat.le_total P.B n with h | h
  · rw [Nat.min_eq_left h, chunkCount_more P h]
  · rw [Nat.min_eq_right h, Nat.sub_self, chunkCount_zero, chunkCount_last P h0 h]

theorem chunkCount_pos (P : Params) {n : Nat} (h0 : 0 < n) : 0 < chunkCount P n := by
  rw [chunkCount_step P h0]; omega

theorem ctrStream_first (P : Params) (seed : List Byte) {p : Nat} (h : p < P.B) :
    ctrStream P seed p = (P.E seed).getD p 0 := by
  simp [ctrStream, Nat.div_eq_of_lt h, Nat.mod_eq_of_lt h, ctrAt]

theorem ctrStream_later (P : Params) (seed : List Byte) {p : Nat} (h : P.B ≤ p) :
    ctrStream P seed p = ctrStream P (ctrInc seed) (p - P.B) := by
  have hB := P.B_pos
  obtain ⟨k, rfl⟩ : ∃ k, p = k + P.B := ⟨p - P.B, by omega⟩
  rw [ctrStream, ctrStream, Nat.add_div_right _ (by omega), ctrAt_succ, Nat.add_sub_cancel, Nat.add_mod_right]

/-- The calls of `E` are those of the chunks, wherever the ranges lie. -/
theorem ctrChunks_log (P : Params) (d c : Nat) : ∀ (dst src n : Nat) (r : CtrRun),
    (ctrChunks P d c dst src n r).log = r.log ++ ctrCalls r.ctr c := by
  induction c with
  | zero => intros; simp [ctrChunks, ctrCalls]
  | succ c ih =>
    intro dst src n r
    rw [ctrChunks, ih]
    simp [ctrCalls, List.range_succ_eq_map, ctrAt, Function.comp_def]

/-- Everything the counter-mode loop does to the registers and to memory (R151). -/
theorem ctrChunks_spec (P : Params) (d c : Nat) : ∀ (dst src n : Nat) (r : CtrRun), chunkCount P n = c → NoSmear dst src n →
    (ctrChunks P d c dst src n r).ctr = ctrAt r.ctr c ∧
    (ctrChunks P d c dst src n r).ks = (if n = 0 then r.ks else P.E (ctrAt r.ctr (c - 1))) ∧
    XoredInto r.mem (ctrChunks P d c dst src n r).mem d dst src n (ctrStream P r.ctr) := by
  have hB := P.B_pos
  induction c with
  | zero =>
    intro dst src n r hc _
    obtain rfl : n = 0 := by
      by_contra h0
      have := chunkCount_pos P (Nat.pos_of_ne_zero h0)
      omega
    exact ⟨rfl, rfl, XoredInto.zero _ _ _ _ _⟩
  | succ c ih =>
    intro dst src n r hc hs
    have h0 : n ≠ 0 := by rintro rfl; rw [chunkCount_zero] at hc; omega
    have hm : min P.B n ≤ P.B ∧ min P.B n ≤ n := by omega
    have hc' : chunkCount P (n - min P.B n) = c := by have := chunkCount_step P (Nat.pos_of_ne_zero h0); omega
    have hm0 : n - min P.B n ≠ 0 → min P.B n = P.B := by omega
    rw [ctrChunks]
    generalize min P.B n = m at *
    have hs' : NoSmear (dst + m) (src + m) (n - m) := by rcases hs with h | h | h <;> simp only [NoSmear] <;> omega
    obtain ⟨h1, h2, h4⟩ := ih (dst + m) (src + m) (n - m)
      ⟨ctrInc r.ctr, P.E r.ctr, r.mem.xorInto d dst src m (P.E r.ctr), r.log ++ [.encrypt r.ctr]⟩ hc' hs'
    refine ⟨by rw [h1, ctrAt_succ], ?_, ?_⟩
    · rw [h2, if_neg h0]
      split
      · obtain rfl : c = 0 := by rw [← hc', ‹n - m = 0›, chunkCount_zero]
        rfl
      · rename_i hne
        have : 0 < c := by rw [← hc']; exact chunkCount_pos P (Nat.pos_of_ne_zero hne)
        obtain ⟨k, rfl⟩ : ∃ k, c = k + 1 := ⟨c - 1, by omega⟩
        simp only [Nat.add_sub_cancel, ctrAt_succ]
    · have hx := Memory.xorInto_spec r.mem d dst src m (P.E r.ctr) (by rw [P.E_length]; omega)
      have h := hx.append h4 (by rwa [show m + (n - m) = n by omega])
      rw [show m + (n - m) = n by omega] at h
      refine h.congr fun p hp => ?_
      split
      · rw [ctrStream_first P r.ctr (by omega)]
      · obtain rfl := hm0 (by omega)
        rw [ctrStream_later P r.ctr (by omega)]

/-- Everything seeding `CTR` and running `CTR_XOR` does (R151, R152). -/
theorem seedAndXor_spec (P : Params) (seed : List Byte) (dst src n : Nat) (s : State) (hs : NoSmear dst src n) :
    CtrRan P seed dst src n s (seedAndXor P seed dst src n s) ∧
    (seedAndXor P seed dst src n s).portLog = s.portLog ++ ctrCalls seed (chunkCount P n) := by
  obtain ⟨h1, h2, h4⟩ := ctrChunks_spec P s.draws (chunkCount P n) dst src n ⟨seed, s.KS, s.BUF, s.portLog⟩ rfl hs
  exact ⟨⟨h4, h1, h2, rfl, rfl, ⟨rfl, rfl, rfl, rfl, rfl⟩, rfl⟩, ctrChunks_log _ _ _ _ _ _ _⟩

@[simp] theorem seedAndXor_draws (P : Params) (seed : List Byte) (dst src n : Nat) (s : State) :
    (seedAndXor P seed dst src n s).draws = s.draws := rfl

@[simp] theorem seedAndXor_respPort (P : Params) (seed : List Byte) (dst src n : Nat) (s : State) :
    (seedAndXor P seed dst src n s).respPort = s.respPort := rfl

/-- In place or apart is what the XOR loops need. -/
theorem InPlaceOrApart.noSmear {dst : Nat} {n : Nat} {r : Region} (h : InPlaceOrApart dst n r) (hn : n ≤ r.n) :
    NoSmear dst r.a n := by
  rcases h with h | h | h | h | h <;> simp only [NoSmear] <;> omega

/-- What is apart from an extent reads the same after the extent is written. -/
theorem XoredInto.readBytes_apart {m m' : Memory} {d dst src n : Nat} {ks : Nat → Byte} (h : XoredInto m m' d dst src n ks)
    {r : Region} (ha : Apart dst n r) (d' : Nat) : m'.readBytes d' r.a r.n = m.readBytes d' r.a r.n := by
  refine Memory.readBytes_congr fun i hi => Memory.readByte_congr ?_
  rw [h, if_neg]
  rcases ha with ha | ha | ha | ha <;> omega

end Sys2Proof.Machine
end

