-- ==== Sys2Proof/Laws/Commands.lean ====
section
/-! SUPPORT. One lemma per command that says once what it can do: its checks pass and it has its effect, or it raises a
status other than `ST_OK` and does nothing else (R196). Then what the parts of `CC_STREAM` leave alone. -/

namespace Sys2Proof.Machine

/-- A command of checks and effect, once what it means that no check fails is known. -/
theorem guarded_verdict {s effect : State} {l : List (Bool × Status)} {accepts : Prop}
    (h : firstFailure l = none ↔ accepts) (hl : Status.ok ∉ l.map (·.2)) :
    (accepts ∧ s.guarded (firstFailure l) effect = effect) ∨
      ∃ st, st ≠ .ok ∧ s.guarded (firstFailure l) effect = s.raise st := by
  rcases guarded_cases s effect (firstFailure l) with ⟨hn, he⟩ | ⟨st, hs, he⟩
  · exact .inl ⟨h.1 hn, he⟩
  · exact .inr ⟨st, failure_ne_ok hs hl, he⟩

theorem ccXor_verdict (P : Params) (rounds counter : Word) (key : Vector Word 8) (nonce : Vector Word 3) (dst src : Region)
    (s : State) :
    (CcXorAccepts P rounds dst src ∧ ccXor P rounds counter key nonce dst src s =
      { s with
          BUF := ccXorMem s.draws (roundsOf rounds).toNat (chachaInit key nonce counter) dst.a src.a src.n s.BUF
          draws := s.draws + 1 }.respond .ok src.len []) ∨
      ∃ st, st ≠ .ok ∧ ccXor P rounds counter key nonce dst src s = s.raise st :=
  guarded_verdict ccXorFailure_none (by simp)

theorem ccNew_verdict (rounds : Word) (key : Vector Word 8) (nonce : Vector Word 3) (s : State) :
    (ValidRounds rounds ∧ ccNew rounds key nonce s =
      { s with
          S := chachaInit key nonce 0
          ROUNDS := (roundsOf rounds).toNat
          OFF := 0
          CC_VALID := true }.respond .ok 0 []) ∨
      ∃ st, st ≠ .ok ∧ ccNew rounds key nonce s = s.raise st :=
  guarded_verdict ccNewFailure_none (by simp)

theorem ccStream_verdict (P : Params) (dst src : Region) (s : State) :
    (CcStreamAccepts P dst src s ∧ ccStream P dst src s =
      { streamXor dst.a src.a src.n s with draws := s.draws + 1 }.respond .ok src.len []) ∨
      ∃ st, st ≠ .ok ∧ ccStream P dst src s = s.raise st :=
  guarded_verdict ccStreamFailure_none (by simp)

theorem eaxNew_verdict (P : Params) (tagSize : Word) (s : State) :
    (EaxNewAccepts P tagSize ∧ eaxNew P tagSize s =
      { s with
          TAGSIZE := (tagSizeOf tagSize).toNat
          CTR := (List.range P.B).map (Config.freeByte s.draws)
          KS := (List.range P.B).map (Config.freeByte (s.draws + 1))
          EAX_VALID := true
          draws := s.draws + 2 }.respond .ok 0 []) ∨
      ∃ st, st ≠ .ok ∧ eaxNew P tagSize s = s.raise st :=
  guarded_verdict eaxNewFailure_none (by simp)

theorem eaxNonceSize_verdict (P : Params) (s : State) :
    (s.EAX_VALID = true ∧ eaxNonceSize P s = s.respond .ok (nonceSizeValue P) []) ∨
      ∃ st, st ≠ .ok ∧ eaxNonceSize P s = s.raise st :=
  guarded_verdict eaxQueryFailure_none (by simp)

theorem eaxOverhead_verdict (s : State) :
    (s.EAX_VALID = true ∧ eaxOverhead s = s.respond .ok (BitVec.ofNat 32 s.TAGSIZE) []) ∨
      ∃ st, st ≠ .ok ∧ eaxOverhead s = s.raise st :=
  guarded_verdict eaxQueryFailure_none (by simp)

theorem eaxSeal_verdict (P : Params) (dst nonce text ad : Region) (s : State) :
    (SealAccepts P dst nonce text ad s ∧ eaxSeal P dst nonce text ad s = sealEffect P dst nonce text ad s) ∨
      ∃ st, st ≠ .ok ∧ eaxSeal P dst nonce text ad s = s.raise st :=
  guarded_verdict eaxSealFailure_none (by simp)

theorem eaxOpen_verdict (P : Params) (dst nonce text ad : Region) (s : State) :
    (OpenAccepts P dst nonce text ad s ∧ eaxOpen P dst nonce text ad s = openEffect P dst nonce text ad s) ∨
      ∃ st, st ≠ .ok ∧ eaxOpen P dst nonce text ad s = s.raise st :=
  guarded_verdict eaxOpenFailure_none (by simp)

/-- Past its entry checks `EAX_OPEN` decrypts, or raises `ST_AUTH_FAIL` with nothing changed but the log of the MAC unit. -/
theorem openEffect_cases (P : Params) (dst nonce text ad : Region) (s : State) :
    let log := s.portLog ++ omacEvents P 0x00 (s.operand nonce) ++ omacEvents P 0x01 (s.operand ad) ++
      omacEvents P 0x02 (openBody text s)
    (expectedTag P nonce text ad s = receivedTag text s ∧ openEffect P dst nonce text ad s =
      { seedAndXor P (authNonce P nonce s) dst.a text.a (text.n - s.TAGSIZE) { s with portLog := log } with
        draws := s.draws + 1 }.respond .ok (BitVec.ofNat 32 (text.n - s.TAGSIZE)) []) ∨
    (expectedTag P nonce text ad s ≠ receivedTag text s ∧
      openEffect P dst nonce text ad s = { s with portLog := log, draws := s.draws + 1 }.raise .authFail) := by
  by_cases h : expectedTag P nonce text ad s = receivedTag text s
  · exact .inl ⟨h, by simp only [openEffect]; rw [if_neg (not_not.2 h)]⟩
  · exact .inr ⟨h, by simp only [openEffect]; rw [if_pos h]⟩

/-- A response appended is the only one that the port holds more. -/
theorem Answers.unique {s t : State} {st st' : Status} {v v' : Word} {tag tag' : List Byte} (h : Answers s t st v tag)
    (h' : Answers s t st' v' tag') : st = st' ∧ v = v' ∧ tag = tag' := by
  have := List.append_cancel_left (h.symm.trans h')
  simpa using this

/-- `CC_STREAM`'s loop writes `S`, `KB`, `OFF` and `BUF` only. -/
theorem streamXor_frame (dst src n : Nat) (s : State) :
    ∃ x kb off m, streamXor dst src n s = { s with S := x, KB := kb, OFF := off, BUF := m } := by
  simp only [streamXor, streamFinal, streamBlocks, streamLeftover]
  split <;> split <;> exact ⟨_, _, _, _, rfl⟩

/-- Generating `q` blocks changes word 12 only (R118). -/
theorem bumpCounter_iterate (q : Nat) : ∀ x : ChaState, bumpCounter^[q] x = x.set 12 (x[12] + BitVec.ofNat 32 q) := by
  induction q with
  | zero => intro x; apply Vector.ext; intro i hi; simp
  | succ q ih =>
    intro x
    rw [Function.iterate_succ_apply, ih]
    apply Vector.ext
    intro i hi
    simp only [bumpCounter, Vector.getElem_set]
    split
    · simp only [if_true, BitVec.add_assoc]
      congr 1
      apply BitVec.eq_of_toNat_eq
      simp
      omega
    · rfl

end Sys2Proof.Machine
end

