-- ==== Sys2Proof/Laws/PerInstr.lean ====
section
/-! SUPPORT. What holds of every command as syntax, one lemma per constructor: the descriptor that `encode` gives it is
legal by the clauses of spec/30_encoding.md R93, whatever its fields hold. -/

namespace Sys2Proof.Laws.EncodesLegally

/-- The descriptor of a command is not illegal (R93). -/
def Statement (i : Instr) : Prop := (encode i).wellFormed = true

theorem ccXor (rounds counter : Word) (key : Vector Word 8) (nonce : Vector Word 3) (dst src : Region) :
    Statement (.ccXor rounds counter key nonce dst src) := by
  simp [Statement, encode, Region.words, Descriptor.wellFormed, Descriptor.hasHeader, Descriptor.reservedZero,
    Descriptor.opcodeUsed, Descriptor.countMatches, formatWords]

theorem ccNew (rounds : Word) (key : Vector Word 8) (nonce : Vector Word 3) : Statement (.ccNew rounds key nonce) := by
  simp [Statement, encode, Descriptor.wellFormed, Descriptor.hasHeader, Descriptor.reservedZero,
    Descriptor.opcodeUsed, Descriptor.countMatches, formatWords]

theorem ccStream (dst src : Region) : Statement (.ccStream dst src) := by
  simp [Statement, encode, Region.words, Descriptor.wellFormed, Descriptor.hasHeader, Descriptor.reservedZero,
    Descriptor.opcodeUsed, Descriptor.countMatches, formatWords]

theorem eaxNew (tagSize : Word) : Statement (.eaxNew tagSize) := by
  simp [Statement, encode, Descriptor.wellFormed, Descriptor.hasHeader, Descriptor.reservedZero,
    Descriptor.opcodeUsed, Descriptor.countMatches, formatWords]

theorem eaxNonceSize : Statement .eaxNonceSize := by
  simp [Statement, encode, Descriptor.wellFormed, Descriptor.hasHeader, Descriptor.reservedZero,
    Descriptor.opcodeUsed, Descriptor.countMatches, formatWords]

theorem eaxOverhead : Statement .eaxOverhead := by
  simp [Statement, encode, Descriptor.wellFormed, Descriptor.hasHeader, Descriptor.reservedZero,
    Descriptor.opcodeUsed, Descriptor.countMatches, formatWords]

theorem eaxSeal (dst nonce text ad : Region) : Statement (.eaxSeal dst nonce text ad) := by
  simp [Statement, encode, Region.words, Descriptor.wellFormed, Descriptor.hasHeader, Descriptor.reservedZero,
    Descriptor.opcodeUsed, Descriptor.countMatches, formatWords]

theorem eaxOpen (dst nonce text ad : Region) : Statement (.eaxOpen dst nonce text ad) := by
  simp [Statement, encode, Region.words, Descriptor.wellFormed, Descriptor.hasHeader, Descriptor.reservedZero,
    Descriptor.opcodeUsed, Descriptor.countMatches, formatWords]

end Sys2Proof.Laws.EncodesLegally
end

