-- ==== Sys2Proof/Tests/Slice0.lean ====
section
/-! SUPPORT. Tests. Expected values are those of spec/95_test_vectors.md (V, P) and the words of spec/30_encoding.md,
never the model's own. Then, for each statement with hypotheses, a theorem that something meets them together. The
attached functions are opaque in the model (Config.collaborators), so commands are tested at the spec's toy collaborators. -/

namespace Sys2Proof.Tests

open Sys2Proof.Machine

/-! The toy collaborators of spec/95_test_vectors.md section 0, and small states -/

/-- `toyE`. -/
def toyE (x : List Byte) : List Byte := (List.range 4).map fun j => x.getD ((j + 1) % 4) 0 ^^^ 0x5a

/-- The sum of the bytes at the places `i` with `i mod 4 = j`; the head's place is `i`. -/
def column (j : Nat) : Nat → List Byte → Nat
  | _, [] => 0
  | i, b :: rest => (if i % 4 = j then b.toNat else 0) + column j (i + 1) rest

/-- `toyMAC`. -/
def toyMAC (m : List Byte) : List Byte := (List.range 4).map fun j => BitVec.ofNat 8 (m.length + column j 0 m)

/-- The toy parameters, `BUF_SIZE = 256`. -/
def toy : Params where
  B := 4
  E := toyE
  E_length := by simp [toyE]
  MAC := toyMAC
  MAC_length := by simp [toyMAC]
  BUF_SIZE := 256

/-- The toy parameters with a MAC construction that rejects the block size. -/
def noMac : Params := { toy with MAC_SUPPORTED := false }

/-- The toy parameters re-keyed: every byte of the MAC is one more. -/
def rekeyedToy : Params where
  toSizes := toy.toSizes
  E := toyE
  E_length := toy.E_length
  MAC m := (toyMAC m).map (· + 1)
  MAC_length := by simp [toyMAC, toy]

/-- Both contexts empty, the registers of the counter-mode core at four zero bytes. -/
def plain : State := { State.reset with CTR := [0, 0, 0, 0], KS := [0, 0, 0, 0] }

/-- The all-zero key and nonce. -/
def zeroKey : Vector Word 8 := Vector.replicate 8 0

def zeroNonce : Vector Word 3 := Vector.replicate 3 0

/-- The key bytes `00 01 .. 1f` and the nonce of V6, as words. -/
def countKey : Vector Word 8 :=
  #v[0x03020100, 0x07060504, 0x0b0a0908, 0x0f0e0d0c, 0x13121110, 0x17161514, 0x1b1a1918, 0x1f1e1d1c]

def v6Nonce : Vector Word 3 := #v[0x09000000, 0x4a000000, 0x00000000]

/-- `n` bytes `00` at `a`. -/
def zeros (a n : Nat) : Memory := Memory.writeBytes [] a (List.replicate n 0)

/-- A stream context of the zero key and nonce at position `p`, the leftover block filled. -/
def streamAt (rounds p : Nat) (mem : Memory) : State :=
  { plain with
    CC_VALID := true
    ROUNDS := rounds
    OFF := Fin.ofNat 64 p
    S := chachaInit zeroKey zeroNonce (BitVec.ofNat 32 ((p + 63) / 64))
    KB := ksBlock zeroKey zeroNonce (BitVec.ofNat 32 (p / 64)) rounds
    BUF := mem }

/-- P3 after step 1: tag size 3, nonce `01 02 03 04`, associated data `aa bb cc`, plaintext "Hello!". -/
def hello : State :=
  { plain with
    EAX_VALID := true
    TAGSIZE := 3
    BUF := ((zeros 0x40 6).writeBytes 0x00 [1, 2, 3, 4]).writeBytes 0x10 [0xaa, 0xbb, 0xcc] |>.writeBytes 0x20
      [0x48, 0x65, 0x6c, 0x6c, 0x6f, 0x21] }

/-- P3 after step 5: the sealed message at `0x20`. -/
def sealed : State :=
  { hello with
    CTR := [0x09, 0x0a, 0x0b, 0x0e]
    KS := [0x50, 0x51, 0x57, 0x53]
    BUF := hello.BUF.writeBytes 0x20 [0x18, 0x34, 0x3a, 0x3f, 0x3f, 0x70, 0xd9, 0x66, 0x9c] }

/-- The commands of P3, in place and to `0x40`. -/
def sealHello : Instr := .eaxSeal ⟨0x20, 6⟩ ⟨0, 4⟩ ⟨0x20, 6⟩ ⟨0x10, 3⟩

def openHello : Instr := .eaxOpen ⟨0x40, 6⟩ ⟨0, 4⟩ ⟨0x20, 9⟩ ⟨0x10, 3⟩

/-! Ill-formed descriptors: one for each clause of R93, and V22 -/

theorem test_wf_refuses_empty : Descriptor.hasHeader [] = false ∧ Descriptor.wellFormed [] = false := by decide

theorem test_wf_refuses_reserved_bits :
    Descriptor.reservedZero [0x80000012] = false ∧ Descriptor.wellFormed [0x80000012] = false := by decide

theorem test_wf_refuses_unused_opcode :
    Descriptor.opcodeUsed [0x04, 0, 0, 0, 0] = false ∧ Descriptor.wellFormed [0x04, 0, 0, 0, 0] = false := by decide

theorem test_wf_refuses_word_count :
    Descriptor.countMatches [0x03, 0, 0, 0] = false ∧ Descriptor.wellFormed [0x03, 0, 0, 0] = false := by decide

theorem test_wf_accepts_stream : Descriptor.wellFormed [0x03, 0, 0, 0, 0] = true := by decide

/-- V22: the verdicts of the decoder, by name. -/
theorem test_decode_illegal :
    decode [] = .illegal .emptyFrame ∧ decode [0] = .illegal .unusedOpcode ∧ decode [1] = .illegal .wrongWordCount ∧
    decode [0x80000012] = .illegal .reservedBits ∧ decode [3, 0, 0, 0] = .illegal .wrongWordCount ∧
    decode [3, 0, 0, 0, 0, 0] = .illegal .wrongWordCount ∧ decode [0x10] = .illegal .wrongWordCount ∧
    decode [0x11, 0] = .illegal .wrongWordCount ∧ decode [0x15] = .illegal .unusedOpcode ∧
    decode [0xff] = .illegal .unusedOpcode := by decide

/-! Decoding, from words of the spec: P1 (variant), P2, P3, V17 -/

theorem test_decode_cc_xor :
    decode [1, 0x14, 0, 0, 0, 0, 0, 0, 0, 0, 0, 0, 0, 0, 0x80, 0x41, 0, 0x41] =
      .command (.ccXor 20 0 zeroKey zeroNonce ⟨0x80, 65⟩ ⟨0, 65⟩) := by decide

theorem test_decode_cc_new :
    decode [2, 0x14, 0x03020100, 0x07060504, 0x0b0a0908, 0x0f0e0d0c, 0x13121110, 0x17161514, 0x1b1a1918, 0x1f1e1d1c,
      0x09000000, 0x4a000000, 0] = .command (.ccNew 20 countKey v6Nonce) := by decide

theorem test_decode_cc_stream :
    decode [3, 0x10a, 0x36, 0x0a, 0x37] = .command (.ccStream ⟨0x10a, 54⟩ ⟨0x0a, 55⟩) := by decide

theorem test_decode_eax_new : decode [0x10, 3] = .command (.eaxNew 3) := by decide

theorem test_decode_eax_noncesize : decode [0x11] = .command .eaxNonceSize := by decide

theorem test_decode_eax_overhead : decode [0x12] = .command .eaxOverhead := by decide

theorem test_decode_eax_seal : decode [0x13, 0x20, 6, 0, 4, 0x20, 6, 0x10, 3] = .command sealHello := by decide

theorem test_decode_eax_open : decode [0x14, 0x40, 6, 0, 4, 0x20, 9, 0x10, 3] = .command openHello := by decide

/-- The words of failing responses: P5 rows 1, 4, 7 and 11, P3 step 7. -/
theorem test_response_words :
    ([.noContext, .illegalCmd, .invalidParam, .badAlias, .authFail] : List Status).map (fun st => Response.words ⟨st, 0, []⟩) =
      [[0x11, 0, 0], [0x10, 0, 0], [0x01, 0, 0], [0x13, 0, 0], [0x02, 0, 0]] := by decide

/-- V14, rows 0, 4 and 5: the calls of `E`. -/
theorem test_ctr_calls :
    let run n := (seedAndXor toy [0, 0, 0, 0x10] 0x20 0 n { plain with BUF := zeros 0 8 }).portLog
    run 0 = [] ∧ run 4 = [.encrypt [0, 0, 0, 0x10]] ∧ run 5 = [.encrypt [0, 0, 0, 0x10], .encrypt [0, 0, 0, 0x11]] := by
  decide +kernel

/-- R81: the word `W[0] = 0x00000011` on a byte-wide transport, bits 7..0 first; one byte is no word. -/
theorem test_decode_bytes :
    decodeBytes [0x11, 0, 0, 0] = .command .eaxNonceSize ∧ decodeBytes [0x11] = .illegal .brokenWord := by decide

/-- The opcode table's numbering: word 1 of `EAX_NEW` is bits 63..32; a row given by its header alone has zero operands. -/
theorem test_decode_table_word :
    decodeTableWord 64 0x0000000300000010 = some (.eaxNew 3) ∧ decodeTableWord 32 0x03 = some (.ccStream ⟨0, 0⟩ ⟨0, 0⟩) ∧
    decodeTableWord 32 0x01 = some (.ccXor 0 0 zeroKey zeroNonce ⟨0, 0⟩ ⟨0, 0⟩) ∧ decodeTableWord 32 0x04 = none := by decide

/-- P5 rows 1, 3 and 7: the first command after reset, from its words. -/
theorem test_step_from_reset :
    step (State.reset.withFetchWord 32 0x03) = .next (State.reset.raise .noContext) ∧
    step (State.reset.withFetchWord 32 0x12) = .next (State.reset.raise .noContext) ∧
    step (State.reset.withFetchWord 64 0x0000001300000002) = .next (State.reset.raise .invalidParam) := ⟨rfl, rfl, rfl⟩

/-- P3, V16 (`tagsize=-1` is `ffffffff`), P2: a line of text and the words the spec gives it. -/
theorem test_assemble_eax :
    (assemble "eax.open dst=0x40:6, nonce=0x00:4, ct=0x20:9, ad=0x10:3".toList).map encode =
      some [0x14, 0x40, 6, 0, 4, 0x20, 9, 0x10, 3] ∧
    (assemble "eax.new tagsize=-1 ; V16".toList).map encode = some [0x10, 0xffffffff] := by decide +kernel

theorem test_assemble_cc :
    (assemble "cc.new rounds=20, key=000102030405060708090a0b0c0d0e0f101112131415161718191a1b1c1d1e1f,
      nonce=000000090000004a00000000".toList).map encode =
      some [2, 0x14, 0x03020100, 0x07060504, 0x0b0a0908, 0x0f0e0d0c, 0x13121110, 0x17161514, 0x1b1a1918, 0x1f1e1d1c,
        0x09000000, 0x4a000000, 0] ∧
    (assemble "cc.stream dst=0x10a:54, src=0x0a:54".toList).map encode = some [3, 0x10a, 0x36, 0x0a, 0x36] := by
  decide +kernel

/-! The codec and the round engine: V7, V4, V5, V6, V1, V8 -/

theorem test_le32 :
    le32 1 2 3 4 = 0x04030201 ∧ le32 0 0 0 0x80 = 0x80000000 ∧ le32Bytes 0x61707865 = #v[0x65, 0x78, 0x70, 0x61] := by
  decide

theorem test_quarter_round :
    quarterRound 0x11111111 0x01020304 0x9b8d6f43 0x01234567 = (0xea2a92f4, 0xcb1cf8ce, 0x4581472e, 0x5881c4bb) := by
  decide

theorem test_init_places_words :
    chachaInit countKey v6Nonce 1 =
      #v[0x61707865, 0x3320646e, 0x79622d32, 0x6b206574, 0x03020100, 0x07060504, 0x0b0a0908, 0x0f0e0d0c,
        0x13121110, 0x17161514, 0x1b1a1918, 0x1f1e1d1c, 0x00000001, 0x09000000, 0x4a000000, 0x00000000] := by decide

theorem test_double_round :
    doubleRound (chachaInit countKey v6Nonce 1) =
      #v[0xcd52e917, 0x85ab03b4, 0xb3457395, 0xf96de7dd, 0xc4b7cd22, 0x5c2e187a, 0xc95eb461, 0x316c801a,
        0x7bf7d740, 0x7eddd644, 0xf1a1bdf5, 0x761246ca, 0x6b0d58a3, 0x6798471a, 0xd737f167, 0xf173888d] := by
  decide +kernel

theorem test_block_v1 :
    ((chachaBlock (chachaInit zeroKey zeroNonce 0) 20).1.toList.take 8 =
      [0x76, 0xb8, 0xe0, 0xad, 0xa0, 0xf1, 0x3d, 0x90]) ∧
    (chachaBlock (chachaInit zeroKey zeroNonce 0) 20).2[12] = 1 := by decide +kernel

/-- V8: the counter wraps without a carry into word 13. -/
theorem test_counter_wraps :
    bumpCounter (chachaInit zeroKey zeroNonce 0xffffffff) = chachaInit zeroKey zeroNonce 0 := by decide

/-! The ChaCha commands: V9, V20, P5 -/

/-- V9, last row: two rounds, four bytes. -/
theorem test_cc_xor_two_rounds :
    let t := runAt toy (.ccXor 2 0 zeroKey zeroNonce ⟨0, 4⟩ ⟨0x80, 4⟩) { plain with BUF := zeros 0x80 4 }
    t.BUF.readBytes 0 0 4 = [0xae, 0x4a, 0xd0, 0x45] ∧ t.BUF.get? 4 = none ∧ t.respPort = [⟨.ok, 4, []⟩] := by
  decide +kernel

/-- V20: the negative round count, the aliasing row, the row whose capacity fails before its range. -/
theorem test_cc_xor_refuses :
    (runAt toy (.ccXor 0xfffffffe 0 zeroKey zeroNonce ⟨0, 64⟩ ⟨0, 64⟩) plain).respPort = [⟨.invalidParam, 0, []⟩] ∧
    (runAt toy (.ccXor 20 0 zeroKey zeroNonce ⟨1, 64⟩ ⟨0, 64⟩) plain).respPort = [⟨.badAlias, 0, []⟩] ∧
    (runAt toy (.ccXor 20 0 zeroKey zeroNonce ⟨250, 3⟩ ⟨0, 64⟩) plain).respPort = [⟨.invalidParam, 0, []⟩] ∧
    (runAt toy (.ccXor 20 0 zeroKey zeroNonce ⟨257, 0⟩ ⟨0, 0⟩) plain).respPort = [⟨.badAddress, 0, []⟩] := by
  decide +kernel

/-- P5 row 8, over a context that stands elsewhere. -/
theorem test_cc_new :
    let t := runAt toy (.ccNew 8 zeroKey zeroNonce) (streamAt 2 5 [])
    t.CC_VALID = true ∧ t.ROUNDS = 8 ∧ t.S[12] = 0 ∧ t.OFF = 0 := by decide +kernel

/-- P5 row 7, and V20: a failing `cc.new` keeps the context. -/
theorem test_cc_new_refuses :
    runAt toy (.ccNew 19 zeroKey zeroNonce) plain = plain.raise .invalidParam ∧
    (runAt toy (.ccNew 0 zeroKey zeroNonce) (streamAt 8 5 [])).ROUNDS = 8 := ⟨rfl, rfl⟩

/-- P5 row 10. -/
theorem test_cc_stream_fresh :
    let t := runAt toy (.ccStream ⟨0x10, 4⟩ ⟨0, 4⟩) (streamAt 8 0 (zeros 0 4))
    t.BUF.readBytes 0 0x10 4 = [0x3e, 0x00, 0xef, 0x2f] ∧ t.S[12] = 1 ∧ t.OFF = 4 := by decide +kernel

/-- P5 row 12: in place, from the leftover block. -/
theorem test_cc_stream_leftover :
    let t := runAt toy (.ccStream ⟨0x10, 4⟩ ⟨0x10, 4⟩)
      (streamAt 8 4 (Memory.writeBytes [] 0x10 [0x3e, 0x00, 0xef, 0x2f]))
    t.BUF.readBytes 0 0x10 4 = [0xb7, 0x5f, 0xaf, 0xf9] ∧ t.S[12] = 1 ∧ t.OFF = 8 := by decide +kernel

/-! The counter-mode core: V12, V13 -/

theorem test_ctr_inc :
    ctrInc [0, 0, 0, 0xff] = [0, 0, 1, 0] ∧ ctrInc [1, 0xff, 0, 0xff] = [1, 0xff, 1, 0] ∧
    ctrInc [0xff, 0xff, 0xff, 0xff] = [0, 0, 0, 0] := by decide

theorem test_ctr_xor :
    let t := ctrXor toy 0x20 0 9 { plain with
      CTR := [0xff, 0xff, 0xff, 0xfe]
      BUF := Memory.writeBytes [] 0 [0x10, 0x11, 0x12, 0x13, 0x14, 0x15, 0x16, 0x17, 0x18] }
    t.BUF.readBytes 0 0x20 9 = [0xb5, 0xb4, 0xb6, 0xb6, 0xb1, 0xb0, 0xb3, 0xb2, 0x42] ∧ t.CTR = [0, 0, 0, 1] ∧
    t.KS = [0x5a, 0x5a, 0x5a, 0x5a] := by decide +kernel

/-! EAX: V15, V16, V17, V21, P3 -/

theorem test_omac :
    omac toy 0 [1, 2, 3, 4] = [0x09, 0x0a, 0x0b, 0x0c] ∧ omac toy 1 [0xaa, 0xbb, 0xcc] = [0xb1, 0xc2, 0xd3, 0x08] ∧
    omac toy 2 [0x18, 0x34, 0x3a, 0x3f, 0x3f, 0x70] = [0x61, 0xae, 0x44, 0x4b] ∧ omac toy 2 [] = [4, 4, 4, 6] := by
  decide

theorem test_eax_new :
    (runAt toy (.eaxNew 4) plain).TAGSIZE = 4 ∧ (runAt toy (.eaxNew 4) plain).EAX_VALID = true ∧
    (runAt toy (.eaxNew 1) plain).respPort = [⟨.ok, 0, []⟩] := by decide

theorem test_eax_new_refuses :
    runAt toy (.eaxNew 0) plain = plain.raise .invalidParam ∧ runAt toy (.eaxNew 5) hello = hello.raise .invalidParam ∧
    runAt toy (.eaxNew 0xffffffff) plain = plain.raise .invalidParam ∧
    runAt noMac (.eaxNew 0) plain = plain.raise .unsupportedCipher := ⟨rfl, rfl, rfl, rfl⟩

theorem test_eax_noncesize :
    (runAt toy .eaxNonceSize hello).respPort = [⟨.ok, 4, []⟩] ∧
    (runAt toy .eaxNonceSize plain).respPort = [⟨.noContext, 0, []⟩] := by decide

theorem test_eax_overhead :
    (runAt toy .eaxOverhead hello).respPort = [⟨.ok, 3, []⟩] ∧
    (runAt toy .eaxOverhead plain).respPort = [⟨.noContext, 0, []⟩] := by decide

/-- P3 step 4, with its response words. -/
theorem test_eax_seal :
    let t := runAt toy sealHello hello
    t.BUF.readBytes 0 0x20 6 = [0x18, 0x34, 0x3a, 0x3f, 0x3f, 0x70] ∧ t.CTR = [0x09, 0x0a, 0x0b, 0x0e] ∧
    t.KS = [0x50, 0x51, 0x57, 0x53] ∧ t.respPort.map Response.words = [[0, 6, 3, 0x009c66d9]] := by decide +kernel

/-- V17: an empty plaintext. -/
theorem test_eax_seal_empty :
    let t := runAt toy (.eaxSeal ⟨0x60, 0⟩ ⟨0, 4⟩ ⟨0x60, 0⟩ ⟨0x60, 0⟩) hello
    t.respPort = [⟨.ok, 0, [0x09, 0x0a, 0x0b]⟩] ∧ t.CTR = [0x09, 0x0a, 0x0b, 0x0c] ∧ t.KS = hello.KS ∧
    t.BUF = hello.BUF := by decide +kernel

/-- P3 step 6. -/
theorem test_eax_open :
    let t := runAt toy openHello sealed
    t.BUF.readBytes 0 0x40 6 = [0x48, 0x65, 0x6c, 0x6c, 0x6f, 0x21] ∧ t.CTR = [0x09, 0x0a, 0x0b, 0x0e] ∧
    t.respPort = [⟨.ok, 6, []⟩] := by decide +kernel

/-- P3 step 7, V21 rows 1, 2, 5: what is refused, and that a refusal for the tag writes nothing. -/
theorem test_eax_open_refuses :
    let bad := { sealed with BUF := sealed.BUF.set 0x22 0x3b }
    (runAt toy openHello bad).respPort = [⟨.authFail, 0, []⟩] ∧ (runAt toy openHello bad).BUF = bad.BUF ∧
    (runAt toy (.eaxOpen ⟨0x40, 0⟩ ⟨0, 3⟩ ⟨0x20, 2⟩ ⟨0x10, 0⟩) sealed).respPort = [⟨.invalidParam, 0, []⟩] ∧
    (runAt toy (.eaxOpen ⟨0x40, 0⟩ ⟨0, 4⟩ ⟨0x200, 2⟩ ⟨0x10, 0⟩) sealed).respPort = [⟨.authFail, 0, []⟩] ∧
    (runAt toy (.eaxOpen ⟨0x02, 6⟩ ⟨0, 4⟩ ⟨0x20, 9⟩ ⟨0x10, 0⟩) sealed).respPort = [⟨.badAlias, 0, []⟩] := by
  decide +kernel

/-- R226: the message of P3 opened after a re-keying. By hand: `0a ^ b2 ^ 62 = da`, where the tag has `d9`. -/
theorem test_rekeyed_open :
    let t := runAt rekeyedToy openHello sealed
    t.respPort = [⟨.authFail, 0, []⟩] ∧ t.BUF = sealed.BUF ∧ (authNonce rekeyedToy ⟨0, 4⟩ sealed).take 1 = [0x0a] := by
  decide +kernel

/-- R226: the step of a re-keying. -/
theorem test_rekey :
    step { sealed with hostMoves := [.rekey 7] } = .next { sealed with attached := 7 } := rfl

/-- The host's reads and writes of `BUF` (R64), and its edge (R50). -/
theorem test_host_access :
    sealed.hostRead toy.toSizes 0x26 3 = some [some 0xd9, some 0x66, some 0x9c] ∧ plain.hostRead toy.toSizes 255 1 = some [none] ∧
    plain.hostRead toy.toSizes 255 2 = none ∧ hostWrite toy.toSizes 256 [0] plain = .fault .hostOutsideBuf :=
  ⟨by decide, by decide, by decide, rfl⟩

/-! Each statement with hypotheses has something that meets them together, clause by clause, at a boundary value. Where
the parameters allow it the theorem is for all of them, so for the attached ones too; else it is at the toy ones. -/

/-- A byte in place at address 0 is in `BUF` whatever the parameters. -/
def oneByte : Region := ⟨0, 1⟩

/-- A range that is in no `BUF`. -/
def nowhere : Region := ⟨0xffffffff, 0xffffffff⟩

theorem test_met_encode_inverts_decode : decode [0x11] = .command .eaxNonceSize := by decide

theorem test_met_illegal_descriptors :
    Descriptor.wellFormed [] = false ∧ Descriptor.wellFormed [0x12] = true := by decide

theorem test_met_step_runs_decoded :
    (plain.withDescriptor [0x12]).hostMoves = .issue [0x12] :: [] ∧ decode [0x12] = .command .eaxOverhead ∧
    (plain.withDescriptor [0x20]).hostMoves = .issue [0x20] :: [] ∧ Descriptor.wellFormed [0x20] = false := by decide

theorem test_met_byte_transport : 3 < 4 * [(0x12345678 : Word)].length := by decide

theorem test_met_half_round : columns.reverse.Perm columns ∧ diagonals.reverse.Perm diagonals := by decide

theorem test_met_cc_xor (P : Params) : CcXorAccepts P 2 oneByte oneByte ∧ CcXorAccepts P 0x7ffffffe ⟨0, 0⟩ ⟨0, 0⟩ := by
  have := P.BUF_SIZE_pos
  exact ⟨⟨by decide, by decide, ⟨this, this⟩, .inl rfl⟩, ⟨by decide, by decide, ⟨by simp [Region.a, Region.n], by simp [Region.a, Region.n]⟩, .inl rfl⟩⟩

theorem test_met_cc_xor_apart : CcXorAccepts toy 20 ⟨192, 64⟩ ⟨128, 64⟩ ∧ CcXorAccepts toy 20 ⟨256, 0⟩ ⟨256, 0⟩ := by
  decide

theorem not_inBuf_nowhere (P : Params) : ¬InBuf P nowhere := by
  have := P.BUF_SIZE_le
  have hn : nowhere.a = 2 ^ 32 - 1 ∧ nowhere.n = 2 ^ 32 - 1 := by decide
  simp only [InBuf, hn]
  omega

theorem test_met_cc_xor_refuses (P : Params) :
    (oneByte.n < (⟨0, 2⟩ : Region).n) ∧ (oneByte.n ≤ oneByte.n ∧ ¬ValidRounds 0 ∧ ¬ValidRounds 3 ∧ ¬ValidRounds 0xfffffffe) ∧
    (nowhere.n ≤ nowhere.n ∧ ValidRounds 2 ∧ ¬(InBuf P nowhere ∧ InBuf P nowhere)) :=
  ⟨by decide, by decide, by decide, by decide, fun h => not_inBuf_nowhere P h.1⟩

/-- V20, the two rows with offset one. -/
theorem test_met_cc_xor_alias :
    (¬InPlaceOrApart (⟨1, 64⟩ : Region).a 64 ⟨0, 64⟩ ∧ ¬InPlaceOrApart (⟨0, 64⟩ : Region).a 64 ⟨1, 64⟩) ∧
    InBuf toy ⟨1, 64⟩ ∧ InBuf toy ⟨0, 64⟩ := by decide

theorem test_met_cc_xor_twice :
    CcXorAccepts toy 2 ⟨0x80, 4⟩ ⟨0, 4⟩ ∧ CcXorAccepts toy 2 ⟨0, 4⟩ ⟨0x80, 4⟩ := by decide

theorem test_met_cc_xor_splits :
    CcXorAccepts toy 2 ⟨0x80, 65⟩ ⟨0, 65⟩ ∧ SpanWritten (zeros 0 65) (⟨0, 65⟩ : Region).a (⟨0, 65⟩ : Region).n ∧
    64 * 1 ≤ (⟨0, 65⟩ : Region).n ∧ (⟨0xc0, 1⟩ : Region).a = (⟨0x80, 65⟩ : Region).a + 64 * 1 ∧
    (⟨0xc0, 1⟩ : Region).n = (⟨0, 65⟩ : Region).n - 64 * 1 := by
  refine ⟨by decide, ?_, by decide, by decide, by decide⟩
  show ∀ i, i < 65 → _
  decide +kernel

theorem test_met_cc_new : ValidRounds 2 ∧ ValidRounds 0x7ffffffe ∧ ¬ValidRounds 0 ∧ ¬ValidRounds 0xffffffff := by decide

/-- At the start of a keystream, and inside a leftover block. -/
theorem test_met_cc_stream (P : Params) (mem : Memory) :
    (AtPosition zeroKey zeroNonce 2 0 (streamAt 2 0 mem) ∧ CcStreamAccepts P oneByte oneByte (streamAt 2 0 mem)) ∧
    (AtPosition zeroKey zeroNonce 2 63 (streamAt 2 63 mem) ∧ CcStreamAccepts P oneByte oneByte (streamAt 2 63 mem)) := by
  have := P.BUF_SIZE_pos
  exact ⟨⟨⟨rfl, rfl, rfl, rfl, fun _ => rfl⟩, rfl, by decide, ⟨this, this⟩, .inl rfl⟩,
    ⟨⟨rfl, rfl, rfl, rfl, fun _ => rfl⟩, rfl, by decide, ⟨this, this⟩, .inl rfl⟩⟩

/-- The clause of the frame about `KB`: the last leftover byte is used and no block is left over. -/
theorem test_met_cc_stream_frame :
    (oneByte.n - leftoverLen oneByte.n (streamAt 2 63 [])) % 64 = 0 := by decide

theorem test_met_cc_stream_refuses (P : Params) :
    plain.CC_VALID = false ∧ ((streamAt 2 0 []).CC_VALID = true ∧ oneByte.n < (⟨0, 2⟩ : Region).n) ∧
    (nowhere.n ≤ nowhere.n ∧ ¬(InBuf P nowhere ∧ InBuf P nowhere)) :=
  ⟨rfl, ⟨rfl, by decide⟩, by decide, fun h => not_inBuf_nowhere P h.1⟩

/-- A run of a stream command, a host write, a re-keying, a failing `CC_NEW` and an illegal descriptor; its source bytes read again
for one `CC_XOR`. -/
theorem test_met_stream_one_shot :
    let badNew : Descriptor := [2, 19, 0, 0, 0, 0, 0, 0, 0, 0, 0, 0, 0]
    let moves : List HostMove := [.issue [3, 0, 4, 0, 4], .write 8 [1], .rekey 1, .issue badNew, .issue []]
    let s : State := { plain with BUF := zeros 0 4 }
    ValidRounds 2 ∧ .reset ∉ moves ∧
    (∀ ws r k v, .issue ws ∈ moves → decode ws = .command (.ccNew r k v) → ¬ValidRounds r) ∧
    CcXorAccepts toy 2 ⟨0, 4⟩ ⟨0, 4⟩ ∧
    s.BUF.readBytes s.draws 0 4 = (streamTrace (fun _ => toy) moves (runAt toy (.ccNew 2 zeroKey zeroNonce) s)).1 := by
  refine ⟨by decide, by decide, ?_, by decide, by decide +kernel⟩
  intro ws r k v h hd
  simp only [List.mem_cons, List.not_mem_nil, or_false, reduceCtorEq, false_or, HostMove.issue.injEq] at h
  rcases h with rfl | rfl | rfl <;> cases hd
  decide

/-- A split at the first byte, at the end of the leftover block, and at the last byte of the range. -/
theorem test_met_stream_chunks :
    AtPosition zeroKey zeroNonce 2 62 (streamAt 2 62 (zeros 0 4)) ∧
    CcStreamAccepts toy ⟨0x80, 4⟩ ⟨0, 4⟩ (streamAt 2 62 (zeros 0 4)) ∧ SpanWritten (zeros 0 4) 0 4 ∧
    (0 ≤ 4 ∧ 2 ≤ 4 ∧ 4 ≤ 4) := by
  refine ⟨⟨rfl, rfl, rfl, rfl, fun _ => rfl⟩, by decide, ?_, by decide⟩
  show ∀ i, i < 4 → _
  decide

theorem test_met_counter_boundary :
    let s1 := runAt toy (.ccNew 2 zeroKey zeroNonce) plain
    CcStreamAccepts toy ⟨0, 64⟩ ⟨0, 64⟩ s1 ∧ CcStreamAccepts toy ⟨64, 1⟩ ⟨64, 1⟩ (runAt toy (.ccStream ⟨0, 64⟩ ⟨0, 64⟩) s1) := by
  decide +kernel

/-- The last consumed byte of the leftover block differs. -/
theorem test_met_dead_leftover :
    let s := streamAt 2 4 []
    s.OFF.val ≠ 0 ∧ ∀ j (h : j < 64), s.OFF.val ≤ j → (s.KB.set 3 (s.KB[3] + 1))[j] = s.KB[j] := by
  refine ⟨by decide, fun j h hj => Vector.getElem_set_ne _ _ ?_⟩
  have : 4 ≤ j := hj
  omega

theorem test_met_chunk_count : 0 < 1 ∧ 1 < toy.B ∧ 3 < toy.B := by decide

/-- Both contexts empty, registers and memory not those of the reset state. -/
theorem test_met_after_reset :
    let s : State := { plain with OFF := 5, TAGSIZE := 3, BUF := zeros 0 4 }
    s.CC_VALID = false ∧ s.EAX_VALID = false ∧ Descriptor.wellFormed [0x20] = false := by decide

/-- In place, and apart on either side, the ranges adjacent. -/
theorem test_met_ctr_twice :
    let dst := 9
    let n := 9
    (dst = 0 ∨ dst + n ≤ 0 ∨ 0 + n ≤ dst) ∧ (18 = dst ∨ 18 + n ≤ dst ∨ dst + n ≤ 18) ∧ (dst = dst ∨ dst + n ≤ dst ∨ dst + n ≤ dst) := by
  decide

theorem test_met_mac_domains : domainPrefix toy 1 ++ [7] = domainPrefix toy 1 ++ [7] := rfl

theorem test_met_eax_new : EaxNewAccepts toy 1 ∧ EaxNewAccepts toy 4 := by decide

theorem test_met_eax_new_refuses :
    noMac.MAC_SUPPORTED = false ∧ (toy.MAC_SUPPORTED = true ∧ (0 : Word).toInt < 1 ∧ (toy.B : Int) < (5 : Word).toInt) := by
  decide

theorem test_met_eax_queries : hello.EAX_VALID = true ∧ plain.EAX_VALID = false ∧ hello.TAGSIZE < 2 ^ 31 ∧ toy.B < 2 ^ 32 := by
  decide

theorem test_met_eax_seal : SealAccepts toy ⟨0x20, 6⟩ ⟨0, 4⟩ ⟨0x20, 6⟩ ⟨0x10, 3⟩ hello := by decide

theorem test_met_eax_seal_empty :
    SealAccepts toy ⟨0x60, 0⟩ ⟨0, 4⟩ ⟨0x60, 0⟩ ⟨0x60, 0⟩ hello ∧ (⟨0x60, 0⟩ : Region).n = 0 ∧ hello.TAGSIZE ≤ toy.B := by decide

/-- Any parameters whose block fits in a word and in `BUF` have such a command too. -/
theorem test_met_eax_seal_any (P : Params) (h : P.B < 2 ^ 32) (hb : P.B ≤ P.BUF_SIZE) (s : State) (hs : s.EAX_VALID = true) :
    SealAccepts P ⟨0, 0⟩ ⟨0, BitVec.ofNat 32 P.B⟩ ⟨0, 0⟩ ⟨0, 0⟩ s := by
  have hn : (⟨0, BitVec.ofNat 32 P.B⟩ : Region).n = P.B := by simpa [Region.n] using h
  refine ⟨hs, hn, le_rfl, ⟨⟨Nat.zero_le _, ?_, Nat.zero_le _, Nat.zero_le _⟩, .inl rfl, .inl rfl, .inl rfl⟩⟩
  simp only [InBuf, hn]
  simpa [Region.a] using hb

/-- V21 rows 12, 13, 11, and a plaintext that ends after `BUF`. -/
theorem test_met_eax_seal_refuses :
    plain.EAX_VALID = false ∧ (hello.EAX_VALID = true ∧ (⟨0, 5⟩ : Region).n ≠ toy.B) ∧
    ((⟨0, 4⟩ : Region).n = toy.B ∧ (⟨0x40, 5⟩ : Region).n < (⟨0x20, 6⟩ : Region).n) ∧
    ((⟨0x40, 6⟩ : Region).n ≤ 6 ∧ ¬InBuf toy ⟨251, 6⟩) ∧
    ((InBuf toy ⟨0x22, 6⟩ ∧ InBuf toy ⟨0, 4⟩ ∧ InBuf toy ⟨0x20, 6⟩ ∧ InBuf toy ⟨0x10, 3⟩) ∧
      ¬InPlaceOrApart (⟨0x22, 6⟩ : Region).a 6 ⟨0x20, 6⟩) := by decide

/-- P3 step 6. -/
theorem test_met_eax_open :
    OpenAccepts toy ⟨0x40, 6⟩ ⟨0, 4⟩ ⟨0x20, 9⟩ ⟨0x10, 3⟩ sealed ∧
    expectedTag toy ⟨0, 4⟩ ⟨0x20, 9⟩ ⟨0x10, 3⟩ sealed = receivedTag ⟨0x20, 9⟩ sealed := by decide +kernel

/-- V21 row 10. -/
theorem test_met_eax_open_mismatch :
    OpenAccepts toy ⟨0x40, 6⟩ ⟨0, 4⟩ ⟨0x20, 9⟩ ⟨0x10, 2⟩ sealed ∧
    expectedTag toy ⟨0, 4⟩ ⟨0x20, 9⟩ ⟨0x10, 2⟩ sealed ≠ receivedTag ⟨0x20, 9⟩ sealed := by decide +kernel

/-- V21 rows 1 to 5 and 8. -/
theorem test_met_eax_open_refuses :
    plain.EAX_VALID = false ∧ (sealed.EAX_VALID = true ∧ (⟨0, 3⟩ : Region).n ≠ toy.B) ∧
    ((⟨0, 4⟩ : Region).n = toy.B ∧ (⟨0x200, 2⟩ : Region).n < sealed.TAGSIZE) ∧
    (sealed.TAGSIZE ≤ (⟨0x200, 9⟩ : Region).n ∧ (⟨0x40, 1⟩ : Region).n < 9 - sealed.TAGSIZE) ∧
    (9 - sealed.TAGSIZE ≤ (⟨0x40, 6⟩ : Region).n ∧ ¬InBuf toy ⟨0xfc, 9⟩) ∧
    ((InBuf toy ⟨2, 6⟩ ∧ InBuf toy ⟨0x24, 6⟩ ∧ InBuf toy ⟨0x20, 9⟩) ∧ ¬Apart (⟨2, 6⟩ : Region).a 6 ⟨0, 4⟩ ∧
      ¬InPlaceOrApart (⟨0x24, 6⟩ : Region).a 6 ⟨0x20, 9⟩) := by decide

/-- P3 steps 4 to 6. -/
theorem test_met_seal_then_open :
    let t := runAt toy sealHello hello
    SealAccepts toy ⟨0x20, 6⟩ ⟨0, 4⟩ ⟨0x20, 6⟩ ⟨0x10, 3⟩ hello ∧ Answers hello t .ok 6 [0xd9, 0x66, 0x9c] ∧
    sealed.TAGSIZE = hello.TAGSIZE ∧ OpenAccepts toy ⟨0x40, 6⟩ ⟨0, 4⟩ ⟨0x20, 9⟩ ⟨0x10, 3⟩ sealed ∧
    (⟨0x20, 9⟩ : Region).n = (⟨0x20, 6⟩ : Region).n + hello.TAGSIZE ∧
    sealed.operand ⟨0x20, 9⟩ = t.BUF.readBytes t.draws (⟨0x20, 6⟩ : Region).a (⟨0x20, 6⟩ : Region).n ++ [0xd9, 0x66, 0x9c] ∧
    sealed.operand ⟨0, 4⟩ = hello.operand ⟨0, 4⟩ ∧ sealed.operand ⟨0x10, 3⟩ = hello.operand ⟨0x10, 3⟩ := by
  decide +kernel

/-- The message of P3 opened under a MAC that gives another tag, and under the one that gives the same. -/
theorem test_met_rekeyed_open :
    let n := omac rekeyedToy 0x00 (hello.operand ⟨0, 4⟩)
    let sealedText : List Byte := [0x18, 0x34, 0x3a, 0x3f, 0x3f, 0x70]
    OpenAccepts rekeyedToy ⟨0x40, 6⟩ ⟨0, 4⟩ ⟨0x20, 9⟩ ⟨0x10, 3⟩ sealed ∧
    eaxTag 3 n (omac rekeyedToy 0x01 (hello.operand ⟨0x10, 3⟩)) (omac rekeyedToy 0x02 sealedText) ≠ [0xd9, 0x66, 0x9c] ∧
    eaxTag 3 (omac toy 0x00 (hello.operand ⟨0, 4⟩)) (omac toy 0x01 (hello.operand ⟨0x10, 3⟩)) (omac toy 0x02 sealedText) =
      [0xd9, 0x66, 0x9c] := by decide +kernel

theorem test_met_rekey :
    let s : State := { plain with hostMoves := [.rekey 7] }
    s.hostMoves = .rekey 7 :: [] ∧ ∃ t, step s = .next t ∧ t.attached ≠ s.attached := ⟨rfl, _, rfl, by decide⟩

/-- The first and the last byte of the tag of P3. -/
theorem test_met_tampered :
    (0x20 + (9 - sealed.TAGSIZE) ≤ 0x26 ∧ 0x28 < 0x20 + 9) ∧ Apart 0x26 1 ⟨0, 4⟩ ∧ Apart 0x28 1 ⟨0x10, 3⟩ ∧
    (0xd8 : Byte) ≠ sealed.BUF.readByte sealed.draws 0x26 ∧ (0x1c : Byte) ≠ sealed.BUF.readByte sealed.draws 0x28 := by
  decide

theorem test_met_failure : Answers plain (runAt toy .eaxOverhead plain) .noContext 0 [] ∧ Status.noContext ≠ .ok := by decide

theorem test_met_empty_registers : (streamAt 2 0 []).EAX_VALID = false ∧ hello.CC_VALID = false := by decide

/-- A reset event clears both bits; `CC_NEW` sets its bit. -/
theorem test_met_valid_bits :
    let s : State := { hello with CC_VALID := true, hostMoves := [.reset] }
    let n : State := plain.withDescriptor (encode (.ccNew 2 zeroKey zeroNonce))
    (∃ t, step s = .next t ∧ t.CC_VALID = false ∧ t.EAX_VALID = false) ∧
    ∃ t, step n = .next t ∧ n.CC_VALID = false ∧ t.CC_VALID = true := ⟨⟨_, rfl, rfl, rfl⟩, ⟨_, rfl, rfl, rfl⟩⟩

/-- `EAX_NEW` sets its bit wherever the MAC accepts the block size; whether it does is not known of the attached one. -/
theorem test_met_valid_bits_eax (h : Config.sizes.MAC_SUPPORTED = true) :
    ∃ t, step (plain.withDescriptor [0x10, 1]) = .next t ∧ plain.EAX_VALID = false ∧ t.EAX_VALID = true := by
  have ha : EaxNewAccepts plain.params 1 := ⟨h, by decide, by
    rw [show (1 : Word).toInt = 1 from rfl, params_sizes]
    exact_mod_cast Config.sizes.B_pos⟩
  refine ⟨eaxNew plain.params 1 plain, rfl, rfl, ?_⟩
  rw [eaxNew, guarded_none (eaxNewFailure_none.2 ha)]
  rfl

/-- The one stop: a write past the largest `BUF` that R5 admits. -/
theorem test_met_stop : step { plain with hostMoves := [.write (2 ^ 32) [0]] } = .fault .hostOutsideBuf := by
  have := Config.sizes.BUF_SIZE_le
  simp only [step, stepCore, takeMove, hostWrite, List.length_singleton]
  rw [if_neg (by omega)]

/-- The first and the last byte of `BUF`. -/
theorem test_met_host_write :
    0 + [(5 : Byte)].length ≤ Config.sizes.BUF_SIZE ∧
    Config.sizes.BUF_SIZE - 1 + [(5 : Byte)].length ≤ Config.sizes.BUF_SIZE := by
  have := Config.sizes.BUF_SIZE_pos
  simp only [List.length_singleton]
  omega

theorem test_met_reset_event : ({ hello with hostMoves := [.reset] } : State).hostMoves = .reset :: [] := rfl

theorem test_met_memory_inv :
    let s : State := { plain with BUF := [(0, 7)], hostMoves := [.issue [0x12]] }
    MemInv Config.sizes s ∧ step s = .next ({ s with hostMoves := [] }.raise .noContext) := by
  have := Config.sizes.BUF_SIZE_pos
  refine ⟨⟨by simp, ?_⟩, rfl⟩
  intro c hc
  rw [List.mem_singleton.1 hc]
  exact this

/-- In mid-block, with a stream command to come. -/
theorem test_met_stream_inv :
    let s : State := { streamAt 2 63 [] with hostMoves := [.issue [0x12]] }
    StreamInv s ∧ step s = .next ({ s with hostMoves := [] }.raise .noContext) :=
  ⟨fun _ => ⟨by decide, zeroKey, zeroNonce, 63, rfl, rfl, rfl, rfl, fun _ => rfl⟩, rfl⟩

theorem test_met_eax_inv :
    let s : State := { State.reset with EAX_VALID := true, TAGSIZE := 1, hostMoves := [.issue [0x12]] }
    EaxInv Config.sizes s ∧ step s = .next ({ s with hostMoves := [] }.respond .ok 1 []) :=
  ⟨⟨by simp [State.reset], by simp [State.reset], fun _ => ⟨by decide, Config.sizes.B_pos, by decide⟩⟩, rfl⟩

end Sys2Proof.Tests
end

section
/-! SUPPORT. Every descriptor is answered with one response (spec/00_scope.md R11): each command appends one, of a tag
of at most `B` bytes, and takes none of the moves to come; so does the answer to an illegal descriptor. -/

namespace Sys2Proof.Machine

/-- One response, of a tag of at most `b` bytes, is appended, and no further move from outside is taken. -/
def AnsweredOnce (b : Nat) (s t : State) : Prop :=
  ∃ st value tag, Answers s t st value tag ∧ tag.length ≤ b ∧ t.hostMoves = s.hostMoves

/-- A response of a short enough tag, after work that leaves the response port and the coming moves alone. -/
theorem AnsweredOnce.of_respond {b : Nat} {s u : State} (hresp : u.respPort = s.respPort)
    (hmoves : u.hostMoves = s.hostMoves) (st : Status) (value : Word) {tag : List Byte} (htag : tag.length ≤ b) :
    AnsweredOnce b s (u.respond st value tag) :=
  ⟨st, value, tag, by rw [Answers, respond_respPort, hresp], htag, hmoves⟩

theorem AnsweredOnce.raise (b : Nat) (s : State) (st : Status) : AnsweredOnce b s (s.raise st) :=
  .of_respond rfl rfl st 0 (Nat.zero_le b)

/-- A command of checks and effect answers once when its effect does, since a failed check raises. -/
theorem AnsweredOnce.guarded {b : Nat} {s effect : State} (failure : Option Status) (h : AnsweredOnce b s effect) :
    AnsweredOnce b s (s.guarded failure effect) := by
  rcases guarded_cases s effect failure with ⟨_, heffect⟩ | ⟨st, _, hraise⟩
  · rwa [heffect]
  · rw [hraise]
    exact .raise b s st

/-- A tag is no longer than the MAC sums it is cut from (R172). -/
theorem eaxTag_length_le (tagSize : Nat) (n h c : List Byte) : (eaxTag tagSize n h c).length ≤ n.length := by
  simp only [eaxTag, xorBytes, List.length_take, List.length_zipWith]
  omega

theorem sealEffect_answeredOnce (P : Params) (dst nonce text ad : Region) (s : State) :
    AnsweredOnce P.B s (sealEffect P dst nonce text ad s) := by
  refine .of_respond rfl rfl _ _ ((eaxTag_length_le _ _ _ _).trans_eq ?_)
  exact omac_length P 0x00 (s.operand nonce)

theorem openEffect_answeredOnce (P : Params) (dst nonce text ad : Region) (s : State) :
    AnsweredOnce P.B s (openEffect P dst nonce text ad s) := by
  rcases openEffect_cases P dst nonce text ad s with ⟨_, hmatch⟩ | ⟨_, hmismatch⟩
  · rw [hmatch]
    exact .of_respond rfl rfl _ _ (Nat.zero_le _)
  · rw [hmismatch]
    exact .of_respond rfl rfl _ _ (Nat.zero_le _)

/-- The loop of `CC_STREAM` gives no response and takes no move. -/
theorem streamXor_ports (dst src n : Nat) (s : State) :
    (streamXor dst src n s).respPort = s.respPort ∧ (streamXor dst src n s).hostMoves = s.hostMoves := by
  obtain ⟨x, kb, off, m, hframe⟩ := streamXor_frame dst src n s
  simp [hframe]

/-- Every command answers once, at any parameters. -/
theorem runAt_answeredOnce (P : Params) (i : Instr) (s : State) : AnsweredOnce P.B s (runAt P i s) := by
  cases i with
  | ccXor | ccNew | eaxNew | eaxNonceSize | eaxOverhead =>
    exact .guarded _ (.of_respond rfl rfl _ _ (Nat.zero_le _))
  | ccStream dst src =>
    obtain ⟨hresp, hmoves⟩ := streamXor_ports dst.a src.a src.n s
    exact .guarded _ (.of_respond hresp hmoves _ _ (Nat.zero_le _))
  | eaxSeal dst nonce text ad => exact .guarded _ (sealEffect_answeredOnce P dst nonce text ad s)
  | eaxOpen dst nonce text ad => exact .guarded _ (openEffect_answeredOnce P dst nonce text ad s)

/-- Every descriptor is answered once, an illegal one by `ST_ILLEGAL_CMD` (R93). -/
theorem answer_answeredOnce (ws : Descriptor) (s : State) :
    ∃ t, answer ws s = .next t ∧ AnsweredOnce Config.sizes.B s t := by
  rw [answer]
  cases decode ws with
  | illegal why => exact ⟨_, rfl, .raise _ s .illegalCmd⟩
  | command i => exact ⟨_, exec_eq_runAt i s, runAt_answeredOnce s.params i s⟩

/-- The descriptor put on the command port is the one the next step answers. -/
theorem step_withDescriptor (ws : Descriptor) (s : State) : step (s.withDescriptor ws) = answer ws s := rfl

/-- Settles O41: each command appends one response whose tag is empty or cut from a `B`-byte MAC sum, and an illegal
descriptor is answered by a raised status. -/
theorem everyDescriptorAnsweredOnce : Obligations.EveryDescriptorAnsweredOnce := by
  intro ws s
  obtain ⟨t, hstep, st, value, tag, hanswers⟩ := answer_answeredOnce ws s
  exact ⟨t, st, value, tag, (step_withDescriptor ws s).trans hstep, hanswers⟩

end Sys2Proof.Machine
end

section
/-! SUPPORT. The decoder of Sys2Proof/Decode.lean accepts exactly the descriptors that none of the four clauses of
spec/30_encoding.md R93 calls illegal, format by format. -/

namespace Sys2Proof

/-- The decoder's verdict is a command. -/
def Decoded.IsCommand (d : Decoded) : Prop := ∃ i, d = .command i

@[simp] theorem Decoded.isCommand_command (i : Instr) : (Decoded.command i).IsCommand := ⟨i, rfl⟩

@[simp] theorem Decoded.not_isCommand_illegal (why : Illegal) : ¬(Decoded.illegal why).IsCommand := nofun

/-- Format X is accepted at its 17 operand words and at no other count (R84, R93). -/
theorem decodeX_isCommand_iff (args : List Word) : (decodeX args).IsCommand ↔ args.length = 17 := by
  constructor
  · fun_cases decodeX args <;> simp
  · intro h
    match args, h with
    | [_, _, _, _, _, _, _, _, _, _, _, _, _, _, _, _, _], _ => exact ⟨_, rfl⟩

/-- Format N (R85, R93). -/
theorem decodeN_isCommand_iff (args : List Word) : (decodeN args).IsCommand ↔ args.length = 12 := by
  constructor
  · fun_cases decodeN args <;> simp
  · intro h
    match args, h with
    | [_, _, _, _, _, _, _, _, _, _, _, _], _ => exact ⟨_, rfl⟩

/-- Format M (R86, R93). -/
theorem decodeM_isCommand_iff (args : List Word) : (decodeM args).IsCommand ↔ args.length = 4 := by
  constructor
  · fun_cases decodeM args <;> simp
  · intro h
    match args, h with
    | [_, _, _, _], _ => exact ⟨_, rfl⟩

/-- Format T (R87, R93). -/
theorem decodeT_isCommand_iff (args : List Word) : (decodeT args).IsCommand ↔ args.length = 1 := by
  constructor
  · fun_cases decodeT args <;> simp
  · intro h
    match args, h with
    | [_], _ => exact ⟨_, rfl⟩

/-- Format Q (R88, R93). -/
theorem decodeQ_isCommand_iff (i : Instr) (args : List Word) : (decodeQ i args).IsCommand ↔ args.length = 0 := by
  cases args <;> simp [decodeQ]

/-- Format A (R89, R93). -/
theorem decodeA_isCommand_iff (mk : (dst nonce text ad : Region) → Instr) (args : List Word) :
    (decodeA mk args).IsCommand ↔ args.length = 8 := by
  constructor
  · fun_cases decodeA mk args <;> simp
  · intro h
    match args, h with
    | [_, _, _, _, _, _, _, _], _ => exact ⟨_, rfl⟩

/-- An opcode and its operand words are accepted when the opcode has a format and the words are as many as it says,
the header being one more (R92, R93). -/
theorem decodeBody_isCommand_iff (opc : Nat) (args : List Word) :
    (decodeBody opc args).IsCommand ↔ formatWords opc = some (args.length + 1) := by
  fun_cases decodeBody opc args
  case case1 => simp [formatWords, decodeX_isCommand_iff, eq_comm]
  case case2 => simp [formatWords, decodeN_isCommand_iff, eq_comm]
  case case3 => simp [formatWords, decodeM_isCommand_iff, eq_comm]
  case case4 => simp [formatWords, decodeT_isCommand_iff, eq_comm]
  case case5 | case6 => simp [formatWords, decodeQ_isCommand_iff, eq_comm]
  case case7 | case8 => simp [formatWords, decodeA_isCommand_iff, eq_comm]
  case case9 => simp [formatWords, *]

/-- A descriptor with a header is legal when the reserved bits are zero and the count is that of the opcode's format:
a matching count makes the opcode one of the eight (R93). -/
theorem wellFormed_cons_iff (header : Word) (args : List Word) :
    Descriptor.wellFormed (header :: args) = true ↔
      header.toNat / 256 = 0 ∧ formatWords (header.toNat % 256) = some (args.length + 1) := by
  have hused (h : formatWords (header.toNat % 256) = some (args.length + 1)) :
      (formatWords (header.toNat % 256)).isSome = true := by rw [h]; rfl
  simp only [Descriptor.wellFormed, Descriptor.hasHeader, Descriptor.reservedZero, Descriptor.opcodeUsed,
    Descriptor.countMatches, List.isEmpty_cons, Bool.not_false, Bool.true_and, List.headD_cons, List.length_cons,
    Bool.and_eq_true, beq_iff_eq]
  tauto

/-- The decoder accepts exactly the descriptors that R93 does not call illegal. -/
theorem decode_isCommand_iff (ws : Descriptor) : (decode ws).IsCommand ↔ ws.wellFormed = true := by
  cases ws with
  | nil => simp [decode, Descriptor.wellFormed, Descriptor.hasHeader]
  | cons header args =>
    rw [wellFormed_cons_iff, ← decodeBody_isCommand_iff, decode]
    split <;> simp_all

namespace Machine

/-- A legal descriptor is answered by its command. -/
theorem answer_of_decode_command {ws : Descriptor} {i : Instr} (h : decode ws = .command i) (s : State) :
    answer ws s = exec i s := by
  rw [answer, h]

/-- A descriptor that no command reads is answered by raising `ST_ILLEGAL_CMD` (R93, R194). -/
theorem answer_of_wellFormed_false {ws : Descriptor} (h : ws.wellFormed = false) (s : State) :
    answer ws s = .next (s.raise .illegalCmd) := by
  have hnot : ¬(decode ws).IsCommand := by simp [decode_isCommand_iff, h]
  rw [answer]
  cases hdecode : decode ws with
  | illegal why => rfl
  | command i => exact absurd ⟨i, hdecode⟩ hnot

/-- A raised status leaves all state of R20 as it was. -/
theorem raise_sameCore (s : State) (st : Status) : SameCore s (s.raise st) := by
  simp [SameCore, SameStream, SameEax]

/-- Settles O3: the decoder accepts exactly the well-formed descriptors, and a raised status is one response and no
other change. -/
theorem illegalDescriptorsExactly : Obligations.IllegalDescriptorsExactly := by
  intro ws s
  constructor
  · intro hillegal
    exact ⟨s.raise .illegalCmd, answer_of_wellFormed_false hillegal s, raise_respPort s .illegalCmd,
      raise_sameCore s .illegalCmd, raise_portLog s .illegalCmd⟩
  · intro hlegal
    obtain ⟨i, hdecode⟩ := (decode_isCommand_iff ws).2 hlegal
    exact ⟨i, hdecode, answer_of_decode_command hdecode s⟩

end Machine

end Sys2Proof
end

section
/-! SUPPORT. The word codec (R110 to R112): which byte of a word each bit belongs to, the two inverses of `LE32` and
`LE32BYTES`, and the same of `UNPACK64` and `PACK64`, word by word. -/

namespace Sys2Proof.Machine

/-! Words and their four bytes -/

/-- Byte `j` of a word is its bits `8 j + 7 .. 8 j` (R111). -/
theorem getElem_le32Bytes (w : Word) (j : Nat) (hj : j < 4) : (le32Bytes w)[j] = (w >>> (8 * j)).setWidth 8 := by
  match j, hj with
  | 0, _ | 1, _ | 2, _ | 3, _ => simp [le32Bytes]

/-- Bit `k` of byte `j` is bit `8 j + k` of the word. -/
theorem getLsbD_getElem_le32Bytes (w : Word) {j k : Nat} (hj : j < 4) (hk : k < 8) :
    (le32Bytes w)[j].getLsbD k = w.getLsbD (8 * j + k) := by
  simp [getElem_le32Bytes, hk]

/-- A byte shifted up by `m` bytes is byte `m` of the word, and every other byte is zero. -/
theorem getLsbD_byte_shiftLeft (b : Byte) (m : Nat) {j k : Nat} (hj : j < 4) (hk : k < 8) :
    (b.setWidth 32 <<< (8 * m)).getLsbD (8 * j + k) = (decide (j = m) && b.getLsbD k) := by
  rw [BitVec.getLsbD_shiftLeft, BitVec.getLsbD_setWidth]
  obtain hlt | rfl | hgt := Nat.lt_trichotomy j m
  · have hbelow : 8 * j + k < 8 * m := by omega
    simp [hbelow, hlt.ne]
  · have hinside : 8 * j + k < 32 := by omega
    have hword : k < 32 := by omega
    simp [hinside, hword]
  · have habove : 8 ≤ 8 * j + k - 8 * m := by omega
    simp [b.getLsbD_of_ge _ habove, hgt.ne']

/-- `LE32` puts bit `k` of byte `j` at bit `8 j + k` of the word (R110). -/
theorem getLsbD_le32 (b0 b1 b2 b3 : Byte) {j k : Nat} (hj : j < 4) (hk : k < 8) :
    (le32 b0 b1 b2 b3).getLsbD (8 * j + k) = #v[b0, b1, b2, b3][j].getLsbD k := by
  have hle32 : le32 b0 b1 b2 b3 = b0.setWidth 32 <<< (8 * 0) ||| b1.setWidth 32 <<< (8 * 1) |||
      b2.setWidth 32 <<< (8 * 2) ||| b3.setWidth 32 <<< (8 * 3) := by simp [le32]
  simp only [hle32, BitVec.getLsbD_or, getLsbD_byte_shiftLeft _ _ hj hk]
  match j, hj with
  | 0, _ | 1, _ | 2, _ | 3, _ => simp

/-- A word is determined by its bits, counted byte by byte. -/
theorem word_ext {v w : Word} (h : ∀ j k, j < 4 → k < 8 → v.getLsbD (8 * j + k) = w.getLsbD (8 * j + k)) : v = w := by
  refine BitVec.eq_of_getLsbD_eq fun i hi => ?_
  have hbit := h (i / 8) (i % 8) (by omega) (by omega)
  rwa [Nat.div_add_mod] at hbit

/-- `LE32` undoes `LE32BYTES` (R111). -/
@[simp] theorem le32_le32Bytes (w : Word) :
    le32 (le32Bytes w)[0] (le32Bytes w)[1] (le32Bytes w)[2] (le32Bytes w)[3] = w := by
  refine word_ext fun j k hj hk => ?_
  rw [getLsbD_le32 _ _ _ _ hj hk, ← getLsbD_getElem_le32Bytes w hj hk]
  rfl

/-- `LE32BYTES` undoes `LE32` (R111). -/
@[simp] theorem le32Bytes_le32 (b0 b1 b2 b3 : Byte) : le32Bytes (le32 b0 b1 b2 b3) = #v[b0, b1, b2, b3] := by
  refine Vector.ext fun j hj => BitVec.eq_of_getLsbD_eq fun k hk => ?_
  rw [getLsbD_getElem_le32Bytes _ hj hk, getLsbD_le32 _ _ _ _ hj hk]

/-! Blocks and their sixteen words -/

/-- Word `i` of `UNPACK64` is read from bytes `4 i .. 4 i + 3` (R112). -/
theorem getElem_unpack64 (b : Block) (i : Nat) (h : i < 16) :
    (unpack64 b)[i] = le32 b[4 * i] b[4 * i + 1] b[4 * i + 2] b[4 * i + 3] := by
  simp [unpack64, unpackWords]

/-- `PACK64` puts byte `j` of word `i` at byte `4 i + j` (R112). -/
theorem getElem_pack64 (x : ChaState) (i : Nat) (h : i < 16) (j : Nat) (hj : j < 4) :
    (pack64 x)[4 * i + j] = (le32Bytes x[i])[j] := by
  have hdiv : (4 * i + j) / 4 = i := by omega
  have hmod : (4 * i + j) % 4 = j := by omega
  simp [pack64, hdiv, hmod]

/-- A block is determined by its bytes, counted word by word. -/
theorem block_ext {a b : Block}
    (h : ∀ (i : Nat) (_ : i < 16) (j : Nat) (_ : j < 4), a[4 * i + j] = b[4 * i + j]) : a = b := by
  refine Vector.ext fun p hp => ?_
  have hbyte := h (p / 4) (by omega) (p % 4) (by omega)
  simpa only [Nat.div_add_mod] using hbyte

/-- `UNPACK64` undoes `PACK64` (R112). -/
@[simp] theorem unpack64_pack64 (x : ChaState) : unpack64 (pack64 x) = x := by
  refine Vector.ext fun i hi => ?_
  have hbyte (j : Nat) (hj : j < 4) : (pack64 x)[4 * i + j] = (le32Bytes x[i])[j] := getElem_pack64 x i hi j hj
  calc (unpack64 (pack64 x))[i]
    _ = le32 (pack64 x)[4 * i] (pack64 x)[4 * i + 1] (pack64 x)[4 * i + 2] (pack64 x)[4 * i + 3] :=
      getElem_unpack64 _ i hi
    _ = le32 (le32Bytes x[i])[0] (le32Bytes x[i])[1] (le32Bytes x[i])[2] (le32Bytes x[i])[3] := by
      rw [← hbyte 0, ← hbyte 1, ← hbyte 2, ← hbyte 3]; rfl
    _ = x[i] := le32_le32Bytes x[i]

/-- `PACK64` undoes `UNPACK64` (R112). -/
@[simp] theorem pack64_unpack64 (b : Block) : pack64 (unpack64 b) = b := by
  refine block_ext fun i hi j hj => ?_
  rw [getElem_pack64 _ i hi j hj]
  simp only [getElem_unpack64 b i hi, le32Bytes_le32]
  match j, hj with
  | 0, _ | 1, _ | 2, _ | 3, _ => rfl

/-! The statements of the codec -/

/-- Settles O8: the byte positions, both inverses, and the bytes of the rule's own example. -/
theorem le32BytesInverse : Obligations.Le32BytesInverse :=
  ⟨fun w i => getElem_le32Bytes w i i.isLt, le32_le32Bytes, le32Bytes_le32, by decide⟩

/-- Settles O9: the placement of each word by `UNPACK64` and `PACK64`, and both inverses. -/
theorem pack64Inverse : Obligations.Pack64Inverse :=
  ⟨getElem_unpack64, getElem_pack64, unpack64_pack64, pack64_unpack64⟩

end Sys2Proof.Machine
end

section
/-! SUPPORT. `CC_NEW` (spec/41_chacha_xor.md R132): its one check fails exactly on a round count that is not valid, so it
either fills the stream context or raises `ST_INVALID_PARAM`. -/

namespace Sys2Proof.Machine

/-- The one check of `CC_NEW` that fails is the one of the round count (R116, R132). -/
theorem ccNewFailure_of_not_validRounds {rounds : Word} (h : ¬ValidRounds rounds) :
    ccNewFailure rounds = some .invalidParam := by
  have hinvalid : roundsValid rounds = false := by rwa [← Bool.not_eq_true, roundsValid_iff]
  simp [ccNewFailure, firstFailure_cons, hinvalid]

/-- A failing `CC_NEW` keeps the context as it was (R132). -/
theorem ccNew_of_not_validRounds {rounds : Word} (h : ¬ValidRounds rounds) (key : Vector Word 8)
    (nonce : Vector Word 3) (s : State) : ccNew rounds key nonce s = s.raise .invalidParam :=
  guarded_some (ccNewFailure_of_not_validRounds h)

/-- `CC_NEW` of a valid round count fills the stream context at counter 0 with no leftover byte, and answers (R132). -/
theorem ccNew_of_validRounds {rounds : Word} (h : ValidRounds rounds) (key : Vector Word 8) (nonce : Vector Word 3)
    (s : State) :
    ccNew rounds key nonce s =
      { s with
          S := chachaInit key nonce 0
          ROUNDS := (roundsOf rounds).toNat
          OFF := 0
          CC_VALID := true }.respond .ok 0 [] :=
  guarded_none (ccNewFailure_none.2 h)

/-- The register `ROUNDS` holds a valid round count as it is (R91). -/
theorem toNat_roundsOf {rounds : Word} (h : ValidRounds rounds) : ((roundsOf rounds).toNat : Int) = rounds.toInt :=
  Int.toNat_of_nonneg h.1.le

/-- Settles O17: the two outcomes of `CC_NEW`, the fields of the filled context read off one by one. -/
theorem ccNewFillsContext : Obligations.CcNewFillsContext := by
  intro rounds key nonce s
  constructor
  · intro hvalid
    refine ⟨runAt s.params (.ccNew rounds key nonce) s, exec_eq_runAt _ s, ?_⟩
    rw [runAt, ccNew_of_validRounds hvalid]
    simp [toNat_roundsOf hvalid, Answers, SameEax]
  · intro hinvalid
    rw [exec_eq_runAt, runAt, ccNew_of_not_validRounds hinvalid]

end Sys2Proof.Machine
end

section
/-! SUPPORT. The counter as a number (R150): the carry loop works on the bytes from the last leftward, which are the
base-256 digits of the register, least significant first. -/

namespace Sys2Proof.Machine

/-- The number whose base-256 digits are the bytes, least significant first. -/
def valueFromLast (l : List Byte) : Nat := Nat.ofDigits 256 (l.map BitVec.toNat)

@[simp] theorem valueFromLast_nil : valueFromLast [] = 0 := rfl

@[simp] theorem valueFromLast_cons (b : Byte) (l : List Byte) :
    valueFromLast (b :: l) = b.toNat + 256 * valueFromLast l :=
  Nat.ofDigits_cons

theorem valueFromLast_lt (l : List Byte) : valueFromLast l < 256 ^ l.length := by
  have hdigits : ∀ x ∈ l.map BitVec.toNat, x < 256 := by
    simp only [List.mem_map, forall_exists_index, and_imp, forall_apply_eq_imp_iff₂]
    exact fun b _ => b.isLt
  simpa [valueFromLast] using Nat.ofDigits_lt_base_pow_length (by decide) hdigits

/-- The big-endian number of the register is the number of its bytes from the last leftward. -/
theorem ctrValue_reverse (l : List Byte) : ctrValue l.reverse = valueFromLast l := by
  simp [ctrValue, valueFromLast, Nat.ofDigits_eq_foldr, List.foldr_map, add_comm]

/-- A byte that does not wrap absorbs the carry. -/
theorem toNat_add_one_of_ne_zero {b : Byte} (h : b + 1 ≠ 0) : (b + 1).toNat = b.toNat + 1 := by
  bv_omega

/-- The carry loop adds one, modulo `256` to the number of bytes. -/
theorem valueFromLast_incFromLast (l : List Byte) :
    valueFromLast (incFromLast l) = (valueFromLast l + 1) % 256 ^ l.length := by
  induction l with
  | nil => rfl
  | cons b rest ih =>
    rw [List.length_cons, pow_succ', incFromLast]
    split
    next hstop =>
      have hbyte : (b + 1).toNat = b.toNat + 1 := toNat_add_one_of_ne_zero hstop
      have hrest : valueFromLast rest < 256 ^ rest.length := valueFromLast_lt rest
      have hfits : b.toNat + 256 * valueFromLast rest + 1 < 256 * 256 ^ rest.length := by omega
      rw [valueFromLast_cons, valueFromLast_cons, hbyte, Nat.mod_eq_of_lt hfits]
      omega
    next hwrap =>
      have hbyte : b.toNat = 255 := by bv_omega
      calc valueFromLast ((b + 1) :: incFromLast rest)
          = 256 * ((valueFromLast rest + 1) % 256 ^ rest.length) := by simp [hbyte, ih]
        _ = 256 * (valueFromLast rest + 1) % (256 * 256 ^ rest.length) := (Nat.mul_mod_mul_left ..).symm
        _ = (valueFromLast (b :: rest) + 1) % (256 * 256 ^ rest.length) := by
          rw [valueFromLast_cons, hbyte]
          congr 1
          omega

/-- Settles O25: the register read from its last byte is what the carry loop counts up. -/
theorem ctrIncIsBigEndianSuccessor : Obligations.CtrIncIsBigEndianSuccessor := by
  intro ctr
  have hvalue : ctrValue ctr = valueFromLast ctr.reverse := by
    rw [← ctrValue_reverse, List.reverse_reverse]
  refine ⟨ctrInc_length ctr, ?_⟩
  rw [ctrInc, ctrValue_reverse, valueFromLast_incFromLast, List.length_reverse, hvalue]

end Sys2Proof.Machine
end

section
/-! SUPPORT. `EAX_OVERHEAD` (spec/43_eax.md R163): its one check fails exactly without a context; past it, the answer is
the register `TAGSIZE` as a word. -/

namespace Sys2Proof.Machine

/-- The one check of `EAX_NONCESIZE` and `EAX_OVERHEAD` that fails is the one of the valid bit (R162, R163). -/
theorem eaxQueryFailure_of_not_valid {s : State} (h : s.EAX_VALID = false) :
    eaxQueryFailure s = some .noContext := by
  simp [eaxQueryFailure, firstFailure_cons, h]

/-- `EAX_OVERHEAD` outside a context (R163). -/
theorem eaxOverhead_of_not_valid {s : State} (h : s.EAX_VALID = false) : eaxOverhead s = s.raise .noContext :=
  guarded_some (eaxQueryFailure_of_not_valid h)

/-- `EAX_OVERHEAD` in a valid context (R163). -/
theorem eaxOverhead_of_valid {s : State} (h : s.EAX_VALID = true) :
    eaxOverhead s = s.respond .ok (BitVec.ofNat 32 s.TAGSIZE) [] :=
  guarded_none (eaxQueryFailure_none.2 h)

/-- Settles O31: the two outcomes of `EAX_OVERHEAD`; a tag size below `2 ^ 31` is its own word. -/
theorem eaxOverheadAnswersTagSize : Obligations.EaxOverheadAnswersTagSize := by
  intro s
  rw [exec_eq_runAt, runAt]
  constructor
  · intro hvalid hsize
    have hfits : s.TAGSIZE < 2 ^ 32 := by omega
    exact ⟨BitVec.ofNat 32 s.TAGSIZE, Nat.mod_eq_of_lt hfits, by rw [eaxOverhead_of_valid hvalid]⟩
  · intro hinvalid
    rw [eaxOverhead_of_not_valid hinvalid]

end Sys2Proof.Machine
end

section
/-! SUPPORT. The two outcomes of a command (spec/60_exceptions.md R196): `ST_OK`, or a status that is the whole effect on
the state. Which causes raise `ST_AUTH_FAIL` (R192) is part of the outcome, command by command. -/

namespace Sys2Proof.Machine

/-- The two causes of `ST_AUTH_FAIL`, both in `EAX_OPEN`: a sealed message shorter than the tag, a tag mismatch (R192). -/
def AuthFailCause (P : Params) (i : Instr) (s : State) : Prop :=
  ∃ dst nonce text ad, i = .eaxOpen dst nonce text ad ∧
    (s.EAX_VALID = true ∧ nonce.n = P.B ∧ text.n < s.TAGSIZE ∨
      OpenAccepts P dst nonce text ad s ∧ expectedTag P nonce text ad s ≠ receivedTag text s)

theorem authFailCause_eaxOpen_iff {P : Params} {dst nonce text ad : Region} {s : State} :
    AuthFailCause P (.eaxOpen dst nonce text ad) s ↔
      s.EAX_VALID = true ∧ nonce.n = P.B ∧ text.n < s.TAGSIZE ∨
        OpenAccepts P dst nonce text ad s ∧ expectedTag P nonce text ad s ≠ receivedTag text s := by
  constructor
  · rintro ⟨_, _, _, _, ⟨⟩, hcause⟩
    exact hcause
  · exact fun hcause => ⟨dst, nonce, text, ad, rfl, hcause⟩

/-- The command answered `st` with no value and no tag, and changed nothing (R196). -/
def FailedWith (st : Status) (s t : State) : Prop := Answers s t st 0 [] ∧ SameCore s t

theorem failedWith_raise (st : Status) (s : State) : FailedWith st s (s.raise st) :=
  ⟨raise_respPort s st, raise_sameCore s st⟩

/-- The outcome of a command that leads from `s` to `t`, `authFailed` being that a cause of `ST_AUTH_FAIL` is there: it
answers `ST_OK`, or it fails, with `ST_AUTH_FAIL` exactly for such a cause. -/
def CommandOutcome (authFailed : Prop) (s t : State) : Prop :=
  (¬authFailed ∧ ∃ value tag, Answers s t .ok value tag) ∨
    ∃ st, st ≠ .ok ∧ (st = .authFail ↔ authFailed) ∧ FailedWith st s t

/-- A list of checks raises only statuses that stand in it. -/
theorem firstFailure_ne_of_not_mem {l : List (Bool × Status)} {st : Status} (h : st ∉ l.map (·.2)) :
    firstFailure l ≠ some st :=
  mt mem_of_firstFailure h

/-- A command whose checks raise neither `ST_OK` nor `ST_AUTH_FAIL`, and whose effect answers `ST_OK`. -/
theorem CommandOutcome.guarded {authFailed : Prop} {s effect : State} {l : List (Bool × Status)} {value : Word}
    {tag : List Byte} (hcause : ¬authFailed) (hok : Status.ok ∉ l.map (·.2)) (hauth : Status.authFail ∉ l.map (·.2))
    (heffect : Answers s effect .ok value tag) : CommandOutcome authFailed s (s.guarded (firstFailure l) effect) := by
  rcases guarded_cases s effect (firstFailure l) with ⟨_, hguarded⟩ | ⟨st, hfails, hguarded⟩ <;> rw [hguarded]
  · exact .inl ⟨hcause, value, tag, heffect⟩
  · have hne : st ≠ .authFail := by
      rintro rfl
      exact firstFailure_ne_of_not_mem hauth hfails
    exact .inr ⟨st, failure_ne_ok hfails hok, iff_of_false hne hcause, failedWith_raise st s⟩

/-- The entry checks of `EAX_OPEN` raise `ST_AUTH_FAIL` in one place: third, on a message shorter than the tag (R165). -/
theorem eaxOpenFailure_eq_authFail_iff {P : Params} {dst nonce text ad : Region} {s : State} :
    eaxOpenFailure P dst nonce text ad s = some .authFail ↔
      s.EAX_VALID = true ∧ nonce.n = P.B ∧ text.n < s.TAGSIZE := by
  rw [eaxOpenFailure, firstFailure_cons, firstFailure_cons, firstFailure_cons]
  by_cases hvalid : s.EAX_VALID = true
  · by_cases hnonce : nonce.n = P.B
    · by_cases hshort : text.n < s.TAGSIZE
      · simp [hvalid, hnonce, hshort]
      · simp [hvalid, hnonce, hshort, firstFailure_ne_of_not_mem]
    · simp [hvalid, hnonce]
  · simp [hvalid]

/-- Accepted by its entry checks, `EAX_OPEN` decrypts and answers `ST_OK`, or the tags differ and it fails (R165). -/
theorem openEffect_outcome {P : Params} {dst nonce text ad : Region} {s : State}
    (haccepts : OpenAccepts P dst nonce text ad s) :
    CommandOutcome (AuthFailCause P (.eaxOpen dst nonce text ad) s) s (openEffect P dst nonce text ad s) := by
  have hcause : AuthFailCause P (.eaxOpen dst nonce text ad) s ↔
      expectedTag P nonce text ad s ≠ receivedTag text s := by
    have ⟨_, _, hlong, _⟩ := haccepts
    rw [authFailCause_eaxOpen_iff, and_iff_right haccepts]
    simp [hlong.not_gt]
  rw [hcause]
  rcases openEffect_cases P dst nonce text ad s with ⟨hmatch, heffect⟩ | ⟨hmismatch, heffect⟩ <;> rw [heffect]
  · exact .inl ⟨not_not.2 hmatch, _, _, rfl⟩
  · exact .inr ⟨.authFail, by decide, iff_of_true rfl hmismatch, failedWith_raise .authFail _⟩

theorem eaxOpen_outcome (P : Params) (dst nonce text ad : Region) (s : State) :
    CommandOutcome (AuthFailCause P (.eaxOpen dst nonce text ad) s) s (eaxOpen P dst nonce text ad s) := by
  rw [eaxOpen]
  rcases guarded_cases s (openEffect P dst nonce text ad s) (eaxOpenFailure P dst nonce text ad s) with
    ⟨hnone, hguarded⟩ | ⟨st, hfails, hguarded⟩ <;> rw [hguarded]
  · exact openEffect_outcome (eaxOpenFailure_none.1 hnone)
  · have hrejects : ¬OpenAccepts P dst nonce text ad s := by simp [← eaxOpenFailure_none, hfails]
    have hcause : st = .authFail ↔ AuthFailCause P (.eaxOpen dst nonce text ad) s := by
      rw [authFailCause_eaxOpen_iff, ← eaxOpenFailure_eq_authFail_iff, hfails]
      simp [hrejects]
    exact .inr ⟨st, failure_ne_ok hfails (by simp), hcause, failedWith_raise st s⟩

/-- Every command has one of the two outcomes, at any parameters. -/
theorem runAt_outcome (P : Params) (i : Instr) (s : State) : CommandOutcome (AuthFailCause P i s) s (runAt P i s) := by
  cases i with
  | ccXor | ccNew | eaxNew | eaxNonceSize | eaxOverhead | eaxSeal =>
    exact .guarded (by simp [AuthFailCause]) (by simp) (by simp) rfl
  | ccStream dst src =>
    obtain ⟨hresp, _⟩ := streamXor_ports dst.a src.a src.n s
    exact .guarded (value := src.len) (tag := []) (by simp [AuthFailCause]) (by simp) (by simp)
      (by simp [Answers, hresp])
  | eaxOpen dst nonce text ad => exact eaxOpen_outcome P dst nonce text ad s

theorem Answers.lastStatus_eq {s t : State} {st : Status} {value : Word} {tag : List Byte}
    (h : Answers s t st value tag) : lastStatus t = some st := by
  simp [lastStatus, h]

/-- The latest status is `ST_AUTH_FAIL` exactly for one of its causes. -/
theorem CommandOutcome.lastStatus_eq_authFail_iff {authFailed : Prop} {s t : State} (h : CommandOutcome authFailed s t) :
    lastStatus t = some .authFail ↔ authFailed := by
  rcases h with ⟨hcause, _, _, hanswers⟩ | ⟨st, _, hcause, hanswers, _⟩
  · simp [hanswers.lastStatus_eq, hcause]
  · simp [hanswers.lastStatus_eq, hcause]

/-- A status other than `ST_OK` is the command's whole effect on the state (R196). -/
theorem CommandOutcome.failedWith {authFailed : Prop} {s t : State} {st : Status} (h : CommandOutcome authFailed s t)
    (hlast : lastStatus t = some st) (hne : st ≠ .ok) : FailedWith st s t := by
  rcases h with ⟨_, _, _, hanswers⟩ | ⟨st', _, _, hfailed⟩
  · exact absurd (Option.some.inj (hlast.symm.trans hanswers.lastStatus_eq)) hne
  · rwa [Option.some.inj (hlast.symm.trans hfailed.1.lastStatus_eq)]

/-- Settles O42: the outcome of each command names the causes of `ST_AUTH_FAIL`, and a failing command changes nothing. -/
theorem authFailCauses : Obligations.AuthFailCauses := by
  refine ⟨rfl, fun i s => .of_runAt fun P _ => ?_⟩
  have houtcome := runAt_outcome P i s
  exact ⟨houtcome.lastStatus_eq_authFail_iff, fun hlast => houtcome.failedWith hlast (by decide)⟩

/-- Settles O43: a command that does not answer `ST_OK` has the other outcome, whose one response is the one given. -/
theorem failureChangesNothing : Obligations.FailureChangesNothing := by
  intro i s
  refine .of_runAt fun P _ st value tag hanswers hne => ?_
  obtain ⟨hfailed, hsame⟩ := (runAt_outcome P i s).failedWith hanswers.lastStatus_eq hne
  obtain ⟨_, hvalue, htag⟩ := hanswers.unique hfailed
  exact ⟨hvalue, htag, hsame⟩

end Sys2Proof.Machine
end

section
/-! SUPPORT. The encoder and the decoder undo each other (spec/30_encoding.md R84 to R94), a frame of words survives the
byte-wide transport (R81), and the words of a response hold its bytes (R95). -/

namespace Sys2Proof

/-! Descriptors -/

/-- The eight words of a key, by name. -/
theorem exists_eq_vector8 (v : Vector Word 8) : ∃ k0 k1 k2 k3 k4 k5 k6 k7, v = #v[k0, k1, k2, k3, k4, k5, k6, k7] := by
  obtain ⟨⟨l⟩, hl⟩ := v
  match l, hl with
  | [k0, k1, k2, k3, k4, k5, k6, k7], _ => exact ⟨k0, k1, k2, k3, k4, k5, k6, k7, rfl⟩

/-- The three words of a nonce, by name. -/
theorem exists_eq_vector3 (v : Vector Word 3) : ∃ n0 n1 n2, v = #v[n0, n1, n2] := by
  obtain ⟨⟨l⟩, hl⟩ := v
  match l, hl with
  | [n0, n1, n2], _ => exact ⟨n0, n1, n2, rfl⟩

/-- A command is read back from its descriptor. -/
@[simp] theorem decode_encode (i : Instr) : decode (encode i) = .command i := by
  cases i with
  | ccXor rounds counter key nonce dst src =>
    obtain ⟨k0, k1, k2, k3, k4, k5, k6, k7, rfl⟩ := exists_eq_vector8 key
    obtain ⟨n0, n1, n2, rfl⟩ := exists_eq_vector3 nonce
    rfl
  | ccNew rounds key nonce =>
    obtain ⟨k0, k1, k2, k3, k4, k5, k6, k7, rfl⟩ := exists_eq_vector8 key
    obtain ⟨n0, n1, n2, rfl⟩ := exists_eq_vector3 nonce
    rfl
  | ccStream | eaxNew | eaxNonceSize | eaxOverhead | eaxSeal | eaxOpen => rfl

/-- Settles O1: format by format, once the words of key and nonce have names. -/
theorem decodeInvertsEncode : Obligations.DecodeInvertsEncode := decode_encode

/-- The words after the header are those of the command that is read from them, and the header is its opcode (R92). -/
theorem encode_of_decodeBody {opc : Nat} {args : List Word} {i : Instr} (h : decodeBody opc args = .command i) :
    encode i = BitVec.ofNat 32 opc :: args := by
  fun_cases decodeBody opc args
  case case1 => revert h; simp only [decodeBody]; fun_cases decodeX args <;> rintro ⟨⟩; rfl
  case case2 => revert h; simp only [decodeBody]; fun_cases decodeN args <;> rintro ⟨⟩; rfl
  case case3 => revert h; simp only [decodeBody]; fun_cases decodeM args <;> rintro ⟨⟩; rfl
  case case4 => revert h; simp only [decodeBody]; fun_cases decodeT args <;> rintro ⟨⟩; rfl
  case case5 | case6 => revert h; simp only [decodeBody]; cases args <;> rintro ⟨⟩; rfl
  case case7 => revert h; simp only [decodeBody]; fun_cases decodeA Instr.eaxSeal args <;> rintro ⟨⟩; rfl
  case case8 => revert h; simp only [decodeBody]; fun_cases decodeA Instr.eaxOpen args <;> rintro ⟨⟩; rfl
  case case9 => simp_all [decodeBody]

/-- Settles O2: the header of a legal descriptor holds its opcode and no other bit. -/
theorem encodeInvertsDecode : Obligations.EncodeInvertsDecode := by
  intro ws i hdecode
  cases ws with
  | nil => simp [decode] at hdecode
  | cons header args =>
    rw [decode] at hdecode
    split at hdecode
    · simp at hdecode
    · have hheader : header.toNat % 256 = header.toNat := by omega
      rw [encode_of_decodeBody hdecode, hheader, BitVec.ofNat_toNat, BitVec.setWidth_eq]

/-- Settles O4: the decoder run on the eight word sequences. -/
theorem specWordsDecode : Obligations.SpecWordsDecode := by
  unfold Obligations.SpecWordsDecode
  decide

/-! The byte-wide transport -/

open Machine

/-- A word is sent as the bytes of `LE32BYTES` (R81, R111). -/
theorem getElem?_wordBytes (w : Word) {j : Nat} (hj : j < 4) : (wordBytes w)[j]? = some ((w >>> (8 * j)).setWidth 8) := by
  rw [← getElem_le32Bytes w j hj]
  exact List.getElem?_eq_getElem (l := wordBytes w) hj

@[simp] theorem length_wordBytes (w : Word) : (wordBytes w).length = 4 := rfl

@[simp] theorem length_frameBytes (ws : List Word) : (frameBytes ws).length = 4 * ws.length := by
  simp [frameBytes, List.length_flatMap, mul_comm]

theorem frameBytes_cons (w : Word) (ws : List Word) : frameBytes (w :: ws) = wordBytes w ++ frameBytes ws := rfl

/-- Byte `j` of a frame is bits `8 (j mod 4) + 7 .. 8 (j mod 4)` of word `j div 4`. -/
theorem getElem?_frameBytes (ws : List Word) : ∀ j, j < 4 * ws.length →
    (frameBytes ws)[j]? = some (((ws.getD (j / 4) 0) >>> (8 * (j % 4))).setWidth 8) := by
  induction ws with
  | nil => intro j hj; simp at hj
  | cons w ws ih =>
    intro j hj
    rw [frameBytes_cons]
    by_cases hfirst : j < 4
    · rw [List.getElem?_append_left hfirst, getElem?_wordBytes w hfirst, Nat.div_eq_of_lt hfirst, Nat.mod_eq_of_lt hfirst]
      rfl
    · obtain ⟨k, rfl⟩ : ∃ k, j = k + 4 := ⟨j - 4, by omega⟩
      have hk : k < 4 * ws.length := by rw [List.length_cons] at hj; omega
      rw [List.getElem?_append_right (by simp), length_wordBytes, Nat.add_sub_cancel, ih k hk,
        Nat.add_div_right k (by decide), Nat.add_mod_right]
      rfl

/-- Four bytes off the transport, and the rest of the frame. -/
theorem bytesFrame_wordBytes_append (w : Word) (bs : List Byte) :
    bytesFrame (wordBytes w ++ bs) = (bytesFrame bs).map (w :: ·) := by
  have hword : bytesWord (w.setWidth 8) ((w >>> 8).setWidth 8) ((w >>> 16).setWidth 8) ((w >>> 24).setWidth 8) = w :=
    le32_le32Bytes w
  simp only [wordBytes, List.cons_append, List.nil_append, bytesFrame, hword]

/-- A frame is received as the words that were sent. -/
@[simp] theorem bytesFrame_frameBytes (ws : List Word) : bytesFrame (frameBytes ws) = some ws := by
  induction ws with
  | nil => rfl
  | cons w ws ih => rw [frameBytes_cons, bytesFrame_wordBytes_append, ih]; rfl

/-- Settles O6: the place of each byte, and the frame that comes back. -/
theorem byteTransportKeepsFrames : Obligations.ByteTransportKeepsFrames := fun ws =>
  ⟨length_frameBytes ws, getElem?_frameBytes ws, bytesFrame_frameBytes ws⟩

/-! The response frame -/

/-- Byte `j` of `LE32 b0 b1 b2 b3`. -/
theorem shiftRight_le32 (b0 b1 b2 b3 : Byte) {j : Nat} (hj : j < 4) :
    ((le32 b0 b1 b2 b3) >>> (8 * j)).setWidth 8 = [b0, b1, b2, b3].getD j 0 := by
  rw [← getElem_le32Bytes _ j hj]
  simp only [le32Bytes_le32]
  match j, hj with
  | 0, _ | 1, _ | 2, _ | 3, _ => rfl

/-- A tag of one to four bytes is one word, as if zeros followed it. -/
theorem packTag_short {tag : List Byte} (h0 : tag ≠ []) (h4 : tag.length ≤ 4) :
    packTag tag = [le32 (tag.getD 0 0) (tag.getD 1 0) (tag.getD 2 0) (tag.getD 3 0)] := by
  match tag, h0, h4 with
  | [b0], _, _ | [b0, b1], _, _ | [b0, b1, b2], _, _ | [b0, b1, b2, b3], _, _ => simp [packTag, le32]

/-- A tag of more than four bytes is one word of its first four, and the words of the others. -/
theorem packTag_long {tag : List Byte} (h : 4 < tag.length) :
    packTag tag = le32 (tag.getD 0 0) (tag.getD 1 0) (tag.getD 2 0) (tag.getD 3 0) :: packTag (tag.drop 4) := by
  match tag, h with
  | b0 :: b1 :: b2 :: b3 :: rest, _ => rfl

/-- The packed tag, word by word. -/
theorem packTag_eq (tag : List Byte) (h0 : tag ≠ []) :
    packTag tag = le32 (tag.getD 0 0) (tag.getD 1 0) (tag.getD 2 0) (tag.getD 3 0) :: packTag (tag.drop 4) := by
  by_cases h4 : tag.length ≤ 4
  · rw [packTag_short h0 h4, List.drop_eq_nil_of_le h4]
    rfl
  · exact packTag_long (by omega)

/-- The packed tag has as many words as its bytes need, and byte `j` of them is byte `j` of the tag, zero past its end. -/
theorem packTag_spec (tag : List Byte) :
    (packTag tag).length = (tag.length + 3) / 4 ∧
    ∀ j, j < 4 * ((tag.length + 3) / 4) → (((packTag tag).getD (j / 4) 0) >>> (8 * (j % 4))).setWidth 8 = tag.getD j 0 := by
  induction hn : tag.length using Nat.strongRecOn generalizing tag with
  | ind n ih =>
    by_cases h0 : tag = []
    · subst h0; subst hn; simp [packTag]
    · have hpos : 0 < tag.length := List.length_pos_iff.2 h0
      obtain ⟨hlength, hbytes⟩ := ih (tag.drop 4).length (by simp; omega) (tag.drop 4) rfl
      rw [List.length_drop] at hlength hbytes
      rw [packTag_eq tag h0]
      refine ⟨by rw [List.length_cons, hlength]; omega, fun j hj => ?_⟩
      by_cases hfirst : j < 4
      · rw [Nat.div_eq_of_lt hfirst, Nat.mod_eq_of_lt hfirst]
        refine (shiftRight_le32 _ _ _ _ hfirst).trans ?_
        match j, hfirst with
        | 0, _ | 1, _ | 2, _ | 3, _ => rfl
      · obtain ⟨k, rfl⟩ : ∃ k, j = k + 4 := ⟨j - 4, by omega⟩
        rw [Nat.add_div_right k (by decide), Nat.add_mod_right, List.getD_cons_succ, hbytes k (by omega)]
        simp [List.getD_eq_getElem?_getD, add_comm]

/-- Settles O7: the codes as the table gives them, and the words of the frame, of which the tag's start at word 3. -/
theorem responseFrameHoldsResponse : Obligations.ResponseFrameHoldsResponse := by
  refine ⟨by decide, fun r => ?_⟩
  obtain ⟨hlength, hbytes⟩ := packTag_spec r.tag
  refine ⟨by simp [Response.words, hlength]; omega, rfl, rfl, rfl, fun j hj => ?_⟩
  rw [← hbytes j hj]
  simp [Response.words, Nat.add_comm 3]

end Sys2Proof
end

section
/-! SUPPORT. The round engine (spec/40_chacha_engine.md R113 to R118): the quarter-round is undone step by step, and two
quarter-rounds on different words commute. -/

namespace Sys2Proof.Machine

/-! The quarter-round -/

/-- A rotation to the left is undone by the one that completes the word. -/
theorem rotl32_rotl32 (w : Word) {n : Nat} (h0 : 0 < n) (h : n < 32) : rotl32 (rotl32 w n) (32 - n) = w := by
  refine BitVec.eq_of_getLsbD_eq fun i hi => ?_
  have hback : 32 - (32 - n) = n := by omega
  simp only [rotl32, hback, BitVec.getLsbD_or, BitVec.getLsbD_shiftLeft, BitVec.getLsbD_ushiftRight]
  by_cases hlow : i < 32 - n
  · have hin : n + i < 32 := by omega
    have hout : w.getLsbD (32 - n + (n + i)) = false := w.getLsbD_of_ge _ (by omega)
    simp [hlow, hin, hout]
  · have hin : i - (32 - n) < n := by omega
    have hsum : 32 - n + (i - (32 - n)) = i := by omega
    have hout : w.getLsbD (32 - n + (n + i)) = false := w.getLsbD_of_ge _ (by omega)
    simp [hlow, hin, hsum, hout, hi]

/-- The twelve steps of `QR` undone, from the last to the first (R113). -/
def quarterRoundInverse : Word × Word × Word × Word → Word × Word × Word × Word
  | (a, b, c, d) =>
    let b := rotl32 b 25 ^^^ c
    let c := c - d
    let d := rotl32 d 24 ^^^ a
    let a := a - b
    let b := rotl32 b 20 ^^^ c
    let c := c - d
    let d := rotl32 d 16 ^^^ a
    let a := a - b
    (a, b, c, d)

/-- Undoing the steps gives the words back. -/
theorem quarterRoundInverse_quarterRound (a b c d : Word) :
    quarterRoundInverse (quarterRound a b c d) = (a, b, c, d) := by
  have h16 (w : Word) : rotl32 (rotl32 w 16) 16 = w := rotl32_rotl32 w (by decide) (by decide)
  have h12 (w : Word) : rotl32 (rotl32 w 12) 20 = w := rotl32_rotl32 w (by decide) (by decide)
  have h8 (w : Word) : rotl32 (rotl32 w 8) 24 = w := rotl32_rotl32 w (by decide) (by decide)
  have h7 (w : Word) : rotl32 (rotl32 w 7) 25 = w := rotl32_rotl32 w (by decide) (by decide)
  simp [quarterRound, quarterRoundInverse, h16, h12, h8, h7]

/-- Settles O10: a function with a left inverse is injective, and on finitely many words then a bijection. -/
theorem quarterRoundBijective : Obligations.QuarterRoundBijective := by
  refine ⟨Finite.injective_iff_bijective.1 ?_, by decide⟩
  exact Function.LeftInverse.injective (g := quarterRoundInverse) fun q =>
    quarterRoundInverse_quarterRound q.1 q.2.1 q.2.2.1 q.2.2.2

/-! Quarter-rounds on the words of a state -/

/-- The word numbers that a quarter-round reads and writes. -/
def quadWords (q : Fin 16 × Fin 16 × Fin 16 × Fin 16) : List (Fin 16) := [q.1, q.2.1, q.2.2.1, q.2.2.2]

/-- A quarter-round leaves every other word alone. -/
theorem quarterRoundAt_of_not_mem {x : ChaState} {q : Fin 16 × Fin 16 × Fin 16 × Fin 16} {p : Fin 16}
    (h : p ∉ quadWords q) : (quarterRoundAt x q)[p] = x[p] := by
  obtain ⟨i, j, k, l⟩ := q
  simp only [quadWords, List.mem_cons, List.not_mem_nil, or_false, not_or, Fin.ext_iff] at h
  obtain ⟨hi, hj, hk, hl⟩ := h
  simp [quarterRoundAt, Ne.symm hi, Ne.symm hj, Ne.symm hk, Ne.symm hl]

/-- What a quarter-round writes depends on its own words only. -/
theorem quarterRoundAt_congr {x y : ChaState} {q : Fin 16 × Fin 16 × Fin 16 × Fin 16}
    (h : ∀ p ∈ quadWords q, x[p] = y[p]) {p : Fin 16} (hp : p ∈ quadWords q) :
    (quarterRoundAt x q)[p] = (quarterRoundAt y q)[p] := by
  obtain ⟨i, j, k, l⟩ := q
  simp only [quadWords, List.forall_mem_cons] at h
  obtain ⟨hi, hj, hk, hl, -⟩ := h
  simp only [quadWords, List.mem_cons, List.not_mem_nil, or_false] at hp
  simp only [quarterRoundAt, hi, hj, hk, hl, Fin.getElem_fin, Vector.getElem_set]
  rcases hp with rfl | rfl | rfl | rfl <;> simp

/-- Two quarter-rounds without a common word commute. -/
theorem quarterRoundAt_comm {q r : Fin 16 × Fin 16 × Fin 16 × Fin 16} (h : (quadWords q).Disjoint (quadWords r))
    (x : ChaState) : quarterRoundAt (quarterRoundAt x q) r = quarterRoundAt (quarterRoundAt x r) q := by
  refine Vector.ext fun p hp => ?_
  change (quarterRoundAt (quarterRoundAt x q) r)[(⟨p, hp⟩ : Fin 16)] = (quarterRoundAt (quarterRoundAt x r) q)[(⟨p, hp⟩ : Fin 16)]
  by_cases hr : (⟨p, hp⟩ : Fin 16) ∈ quadWords r
  · rw [quarterRoundAt_of_not_mem (h.symm hr)]
    exact quarterRoundAt_congr (fun a ha => quarterRoundAt_of_not_mem (h.symm ha)) hr
  · rw [quarterRoundAt_of_not_mem hr]
    by_cases hq : (⟨p, hp⟩ : Fin 16) ∈ quadWords q
    · exact (quarterRoundAt_congr (fun a ha => quarterRoundAt_of_not_mem (h ha)) hq).symm
    · rw [quarterRoundAt_of_not_mem hq, quarterRoundAt_of_not_mem hq, quarterRoundAt_of_not_mem hr]

/-- Quarter-rounds of which no two different ones have a common word may be evaluated in any order. -/
theorem foldl_quarterRoundAt_perm {l l' : List (Fin 16 × Fin 16 × Fin 16 × Fin 16)} (hperm : l.Perm l')
    (hdisjoint : ∀ q ∈ l', ∀ r ∈ l', q = r ∨ (quadWords q).Disjoint (quadWords r)) (x : ChaState) :
    l.foldl quarterRoundAt x = l'.foldl quarterRoundAt x := by
  refine hperm.foldl_eq' (fun q hq r hr y => ?_) x
  rcases hdisjoint q (hperm.subset hq) r (hperm.subset hr) with rfl | h
  · rfl
  · exact quarterRoundAt_comm h y

theorem columns_disjoint : ∀ q ∈ columns, ∀ r ∈ columns, q = r ∨ (quadWords q).Disjoint (quadWords r) := by
  simp only [List.Disjoint, imp_false]
  decide

theorem diagonals_disjoint : ∀ q ∈ diagonals, ∀ r ∈ diagonals, q = r ∨ (quadWords q).Disjoint (quadWords r) := by
  simp only [List.Disjoint, imp_false]
  decide

/-- Settles O11: no two columns have a common word, and no two diagonals. -/
theorem halfRoundOrderFree : Obligations.HalfRoundOrderFree := fun x _ =>
  ⟨fun h => foldl_quarterRoundAt_perm h columns_disjoint x, fun h => foldl_quarterRoundAt_perm h diagonals_disjoint x⟩

/-! The counter -/

/-- Settles O12: the block is computed from `x`, and word 12 alone is set. -/
theorem blockAdvancesCounterOnly : Obligations.BlockAdvancesCounterOnly := by
  intro x rounds
  refine ⟨rfl, ?_, fun j hj => ?_⟩
  · simp [chachaBlock, bumpCounter]
  · have hother : 12 ≠ j.val := fun h => hj (Fin.ext h.symm)
    simp [chachaBlock, bumpCounter, hother]

end Sys2Proof.Machine
end

section
/-! SUPPORT. What each command leaves alone (spec/10_state.md R43): a failed check everything but the response port, and
the effect all but the fields in the command's row. -/

namespace Sys2Proof.Machine

/-! The loop of `CC_STREAM` on the ChaCha state -/

/-- How many blocks `CC_STREAM` generates for `n` bytes (R133): one for every 64 bytes past the leftover, and one more for
a remainder. -/
def streamBlockCount (n : Nat) (s : State) : Nat := (n - leftoverLen n s + 63) / 64

theorem leftoverLen_le (n : Nat) (s : State) : leftoverLen n s ≤ n := by
  simp only [leftoverLen]
  split <;> omega

@[simp] theorem streamLeftover_S (dst src n : Nat) (s : State) : (streamLeftover dst src n s).S = s.S := by
  simp only [streamLeftover]; split <;> rfl

@[simp] theorem streamBlocks_S (dst src n : Nat) (s : State) :
    (streamBlocks dst src n s).S = bumpCounter^[n / 64] s.S :=
  xorBlocks_state _ _ _ _ _ _ _

theorem streamFinal_S (dst src r : Nat) (s : State) :
    (streamFinal dst src r s).S = if 0 < r then bumpCounter s.S else s.S := by
  simp only [streamFinal]; split <;> rfl

/-- `CC_STREAM` advances the counter by the blocks it generates. -/
theorem streamXor_S (dst src n : Nat) (s : State) :
    (streamXor dst src n s).S = bumpCounter^[streamBlockCount n s] s.S := by
  have hle := leftoverLen_le n s
  simp only [streamXor, streamFinal_S, streamBlocks_S, streamLeftover_S, streamBlockCount]
  generalize leftoverLen n s = i at *
  split
  · rw [← Function.iterate_succ_apply' bumpCounter]
    congr 1
    omega
  · congr 1
    omega

/-- Generating blocks changes no word but the counter (R118). -/
theorem getElem_bumpCounter_iterate {q : Nat} {x : ChaState} {j : Fin 16} (hj : j ≠ 12) : (bumpCounter^[q] x)[j] = x[j] := by
  have hother : 12 ≠ j.val := fun h => hj (Fin.ext h.symm)
  simp [bumpCounter_iterate, hother]

/-! The access matrix -/

/-- The row of the access matrix for command `i`: what it leaves alone from `s` to `t` (R43). No command takes a move of
the host or attaches other functions (R226). -/
def LeavesAlone (i : Instr) (s t : State) : Prop :=
  t.hostMoves = s.hostMoves ∧ t.attached = s.attached ∧
  match i with
  | .ccXor .. => SameStream s t ∧ SameEax s t
  | .ccNew .. => t.KB = s.KB ∧ SameEax s t ∧ t.BUF = s.BUF
  | .ccStream .. =>
      t.CC_VALID = s.CC_VALID ∧ (∀ j : Fin 16, j ≠ 12 → t.S[j] = s.S[j]) ∧ t.ROUNDS = s.ROUNDS ∧ SameEax s t
  | .eaxNew .. => SameStream s t ∧ t.BUF = s.BUF
  | .eaxNonceSize => SameCore s t
  | .eaxOverhead => SameCore s t
  | .eaxSeal .. => SameStream s t ∧ t.EAX_VALID = s.EAX_VALID ∧ t.TAGSIZE = s.TAGSIZE
  | .eaxOpen .. => SameStream s t ∧ t.EAX_VALID = s.EAX_VALID ∧ t.TAGSIZE = s.TAGSIZE

/-- A raised status keeps to the row of every command. -/
theorem leavesAlone_raise (i : Instr) (s : State) (st : Status) : LeavesAlone i s (s.raise st) := by
  cases i <;> simp [LeavesAlone, SameCore, SameStream, SameEax]

/-- A command of checks and effect keeps to its row when its effect does. -/
theorem LeavesAlone.guarded {i : Instr} {s effect : State} (failure : Option Status) (h : LeavesAlone i s effect) :
    LeavesAlone i s (s.guarded failure effect) := by
  rcases guarded_cases s effect failure with ⟨_, heffect⟩ | ⟨st, _, hraise⟩
  · rwa [heffect]
  · rw [hraise]
    exact leavesAlone_raise i s st

/-- The loop of `CC_STREAM` keeps to its row. -/
theorem leavesAlone_streamXor (dst src : Region) (s : State) (d : Nat) (st : Status) (value : Word) (tag : List Byte) :
    LeavesAlone (.ccStream dst src) s ({ streamXor dst.a src.a src.n s with draws := d }.respond st value tag) := by
  have hS := streamXor_S dst.a src.a src.n s
  obtain ⟨x, kb, off, m, hframe⟩ := streamXor_frame dst.a src.a src.n s
  rw [hframe] at hS ⊢
  have hx : x = bumpCounter^[streamBlockCount src.n s] s.S := hS
  exact ⟨rfl, rfl, rfl, fun j hj => hx ▸ getElem_bumpCounter_iterate hj, rfl, rfl, rfl, rfl, rfl⟩

/-- Past its checks `EAX_OPEN` keeps to its row, on a match and on a mismatch. -/
theorem leavesAlone_openEffect (P : Params) (dst nonce text ad : Region) (s : State) :
    LeavesAlone (.eaxOpen dst nonce text ad) s (openEffect P dst nonce text ad s) := by
  rcases openEffect_cases P dst nonce text ad s with ⟨_, h⟩ | ⟨_, h⟩ <;> rw [h] <;>
    exact ⟨rfl, rfl, ⟨rfl, rfl, rfl, rfl, rfl⟩, rfl, rfl⟩

/-- Every command keeps to its row, at any parameters. -/
theorem runAt_leavesAlone (P : Params) (i : Instr) (s : State) : LeavesAlone i s (runAt P i s) := by
  cases i with
  | ccXor => exact .guarded _ ⟨rfl, rfl, ⟨rfl, rfl, rfl, rfl, rfl⟩, rfl, rfl, rfl, rfl⟩
  | ccNew => exact .guarded _ ⟨rfl, rfl, rfl, ⟨rfl, rfl, rfl, rfl⟩, rfl⟩
  | ccStream dst src => exact .guarded _ (leavesAlone_streamXor dst src s _ _ _ _)
  | eaxNew => exact .guarded _ ⟨rfl, rfl, ⟨rfl, rfl, rfl, rfl, rfl⟩, rfl⟩
  | eaxNonceSize | eaxOverhead =>
    exact .guarded _ ⟨rfl, rfl, ⟨rfl, rfl, rfl, rfl, rfl⟩, ⟨rfl, rfl, rfl, rfl⟩, rfl, rfl, rfl⟩
  | eaxSeal => exact .guarded _ ⟨rfl, rfl, ⟨rfl, rfl, rfl, rfl, rfl⟩, rfl, rfl⟩
  | eaxOpen dst nonce text ad => exact .guarded _ (leavesAlone_openEffect P dst nonce text ad s)

@[simp] theorem runAt_attached (P : Params) (i : Instr) (s : State) : (runAt P i s).attached = s.attached :=
  (runAt_leavesAlone P i s).2.1

/-- Settles O44: the row of each command, read off the fields that it writes. -/
theorem accessMatrix : Obligations.AccessMatrix := by
  intro i s
  refine .of_runAt fun P _ => ?_
  have hrow := runAt_leavesAlone P i s
  cases i <;> exact hrow

/-- A command that neither constructs nor advances the stream context leaves it alone. -/
theorem runAt_sameStream (P : Params) {i : Instr} (s : State) (hnew : ∀ r k v, i ≠ .ccNew r k v)
    (hstream : ∀ dst src, i ≠ .ccStream dst src) : SameStream s (runAt P i s) := by
  obtain ⟨_, _, hrow⟩ := runAt_leavesAlone P i s
  cases i with
  | ccXor | eaxNew | eaxNonceSize | eaxOverhead | eaxSeal | eaxOpen => exact hrow.1
  | ccNew r k v => exact absurd rfl (hnew r k v)
  | ccStream dst src => exact absurd rfl (hstream dst src)

end Sys2Proof.Machine
end

section
/-! SUPPORT. One step of the machine (spec/00_scope.md R10, spec/20_memory.md R63): the oldest move from outside is taken,
and each kind of move does one thing. -/

namespace Sys2Proof.Machine

/-- A step takes the oldest move, from the state in which it is no longer to come. -/
theorem step_of_hostMoves {s : State} {m : HostMove} {rest : List HostMove} (h : s.hostMoves = m :: rest) :
    step s = takeMove m { s with hostMoves := rest } := by
  rw [step, stepCore, h]

/-- With no move to come the CORE waits. -/
theorem step_of_no_moves {s : State} (h : s.hostMoves = []) : step s = .next s := by
  rw [step, stepCore, h]

/-- A host write inside `BUF` is stored. -/
theorem takeMove_write {a : Nat} {bytes : List Byte} (h : a + bytes.length ≤ Config.sizes.BUF_SIZE) (s : State) :
    takeMove (.write a bytes) s = .next { s with BUF := s.BUF.writeBytes a bytes } :=
  if_pos h

/-- A host write that reaches outside `BUF` stops the machine. -/
theorem takeMove_write_outside {a : Nat} {bytes : List Byte} (h : Config.sizes.BUF_SIZE < a + bytes.length) (s : State) :
    takeMove (.write a bytes) s = .fault .hostOutsideBuf :=
  if_neg (by omega)

/-- The two outcomes of a move: a next state, or the one stop. -/
theorem takeMove_cases (m : HostMove) (s : State) :
    (takeMove m s = .next (moveAt Config.params m s)) ∨
      ∃ a bytes, m = .write a bytes ∧ Config.sizes.BUF_SIZE < a + bytes.length ∧ takeMove m s = .fault .hostOutsideBuf := by
  by_cases h : ∀ a bytes, m = .write a bytes → a + bytes.length ≤ Config.sizes.BUF_SIZE
  · exact .inl (takeMove_eq_moveAt m s h)
  · push Not at h
    obtain ⟨a, bytes, rfl, hout⟩ := h
    exact .inr ⟨a, bytes, rfl, hout, takeMove_write_outside hout s⟩

/-- What a step that goes on can do: wait, or take the oldest move. -/
theorem step_eq_next {s t : State} (h : step s = .next t) :
    (s.hostMoves = [] ∧ t = s) ∨
      ∃ m rest, s.hostMoves = m :: rest ∧ t = moveAt Config.params m { s with hostMoves := rest } := by
  cases hmoves : s.hostMoves with
  | nil =>
    rw [step_of_no_moves hmoves] at h
    exact .inl ⟨rfl, (Host.Outcome.next.inj h).symm⟩
  | cons m rest =>
    rw [step_of_hostMoves hmoves] at h
    rcases takeMove_cases m { s with hostMoves := rest } with hnext | ⟨_, _, _, _, hfault⟩
    · exact .inr ⟨m, rest, rfl, Host.Outcome.next.inj (h.symm.trans hnext)⟩
    · rw [hfault] at h
      cases h

/-! The moves one by one -/

theorem moveAt_issue_command {F : Nat → Params} {ws : Descriptor} {i : Instr} (h : decode ws = .command i) (s : State) :
    moveAt F (.issue ws) s = runAt (F s.attached) i s := by
  rw [moveAt, h]

theorem moveAt_issue_illegal {F : Nat → Params} {ws : Descriptor} {why : Illegal} (h : decode ws = .illegal why)
    (s : State) : moveAt F (.issue ws) s = s.raise .illegalCmd := by
  rw [moveAt, h]

/-- A host write changes nothing but `BUF`. -/
theorem moveAt_write (F : Nat → Params) (a : Nat) (bytes : List Byte) (s : State) :
    ∃ m, moveAt F (.write a bytes) s = { s with BUF := m } := by
  rw [moveAt]
  split <;> exact ⟨_, rfl⟩

/-- What every kind of move keeps, every move keeps. -/
theorem moveAt_keeps {I : State → Prop} {F : Nat → Params} (hraise : ∀ s, I s → I (s.raise .illegalCmd))
    (hrun : ∀ i s, I s → I (runAt (F s.attached) i s))
    (hwrite : ∀ a bytes s, a + bytes.length ≤ (F s.attached).BUF_SIZE → I s → I { s with BUF := s.BUF.writeBytes a bytes })
    (hreset : ∀ s, I (resetEvent s)) (hrekey : ∀ key s, I s → I (rekey key s)) (m : HostMove) {s : State} (hs : I s) :
    I (moveAt F m s) := by
  cases m with
  | issue ws =>
    cases hdecode : decode ws with
    | illegal why => rw [moveAt_issue_illegal hdecode]; exact hraise s hs
    | command i => rw [moveAt_issue_command hdecode]; exact hrun i s hs
  | write a bytes =>
    rw [moveAt]
    split
    · exact hwrite a bytes s ‹_› hs
    · exact hs
  | reset => exact hreset s
  | rekey key => exact hrekey key s hs

/-- What does not speak of the coming moves and is kept by every move is kept by every step. -/
theorem step_keeps {I : State → Prop} (htake : ∀ s rest, I s → I { s with hostMoves := rest })
    (hmove : ∀ m s, I s → I (moveAt Config.params m s)) {s t : State} (hs : I s) (hstep : step s = .next t) : I t := by
  rcases step_eq_next hstep with ⟨_, rfl⟩ | ⟨m, rest, _, rfl⟩
  · exact hs
  · exact hmove m _ (htake s rest hs)

/-! The statements about a step -/

/-- Settles O5: the descriptor at the head of the moves is the one answered. -/
theorem stepRunsDecodedCommand : Obligations.StepRunsDecodedCommand := by
  intro s ws rest hmoves
  rw [step_of_hostMoves hmoves, takeMove]
  exact ⟨fun i hdecode => answer_of_decode_command hdecode _, fun hillegal => answer_of_wellFormed_false hillegal _⟩

/-- Settles O47: the machine stops on the one kind of move that can fault. -/
theorem noDescriptorStops : Obligations.NoDescriptorStops := by
  intro s
  cases hmoves : s.hostMoves with
  | nil => simp [step_of_no_moves hmoves]
  | cons m rest =>
    rw [step_of_hostMoves hmoves]
    rcases takeMove_cases m { s with hostMoves := rest } with hnext | ⟨a, bytes, rfl, hout, hfault⟩
    · simp [hnext]
    · rw [hfault]
      exact ⟨nofun, fun _ _ => ⟨a, bytes, rest, rfl, hout⟩⟩

/-- Settles O48: the bytes read back by `get?` after `writeBytes`. -/
theorem hostWriteWritesBuf : Obligations.HostWriteWritesBuf := by
  intro s a bytes rest hmoves hin
  rw [step_of_hostMoves hmoves, takeMove_write hin]
  exact ⟨_, rfl, rfl, Memory.get?_writeBytes bytes s.BUF a, ⟨rfl, rfl, rfl, rfl, rfl⟩, ⟨rfl, rfl, rfl, rfl⟩, rfl, rfl, rfl⟩

/-- Settles O49: the state after the event is the reset state in these fields. -/
theorem resetEventClears : Obligations.ResetEventClears := by
  intro s rest hmoves
  rw [step_of_hostMoves hmoves]
  exact ⟨_, rfl, rfl, rfl, fun _ => rfl, rfl, rfl, rfl⟩

/-- Settles O50: by the definition of the reset state. -/
theorem resetValues : Obligations.ResetValues := ⟨rfl, rfl, fun _ => rfl⟩

/-- Settles O52: every byte of the string that was written is found at its address. -/
theorem readAfterWrite : Obligations.ReadAfterWrite := by
  intro m d a bytes
  constructor
  · refine List.ext_getElem (by simp) fun i hi hbytes => ?_
    rw [Memory.readBytes_getElem]
    refine Memory.readByte_of_get? ?_
    rw [Memory.get?_writeBytes, if_pos (by omega), Nat.add_sub_cancel_left, List.getElem?_eq_getElem hbytes]
  · intro x hx
    rw [Memory.get?_writeBytes, if_neg (by omega)]

/-- Which functions are attached after a move: those of a re-keying, else the ones before (R226). -/
theorem moveAt_attached (F : Nat → Params) (m : HostMove) (s : State) :
    (moveAt F m s).attached = s.attached ∨ m = .rekey (moveAt F m s).attached := by
  cases m with
  | issue ws =>
    left
    cases hdecode : decode ws with
    | illegal why => rw [moveAt_issue_illegal hdecode, raise_attached]
    | command i => rw [moveAt_issue_command hdecode, runAt_attached]
  | write a bytes =>
    obtain ⟨_, hwrite⟩ := moveAt_write F a bytes s
    rw [hwrite]
    exact .inl rfl
  | reset => exact .inl rfl
  | rekey key => exact .inr rfl

/-- Settles O60: the re-keying step, the functions a command runs with, and no other move that attaches any. -/
theorem rekeyAttachesFunctions : Obligations.RekeyAttachesFunctions := by
  refine ⟨fun s key rest hmoves => step_of_hostMoves hmoves, exec_eq_runAt, fun s t hstep hne => ?_, fun _ => rfl⟩
  rcases step_eq_next hstep with ⟨_, rfl⟩ | ⟨m, rest, hmoves, rfl⟩
  · exact absurd rfl hne
  · rcases moveAt_attached Config.params m { s with hostMoves := rest } with hsame | hrekey
    · exact absurd hsame hne
    · exact ⟨rest, hmoves.trans (congrArg (· :: rest) hrekey)⟩

/-! The valid bits -/

/-- Only `CC_NEW` writes `CC_VALID`, and only to set it (R26). -/
theorem runAt_CC_VALID (P : Params) (i : Instr) (s : State) :
    (runAt P i s).CC_VALID = s.CC_VALID ∨ (runAt P i s).CC_VALID = true ∧ ∃ rounds key nonce, i = .ccNew rounds key nonce := by
  obtain ⟨_, _, hrow⟩ := runAt_leavesAlone P i s
  cases i with
  | ccXor | eaxNew | eaxNonceSize | eaxOverhead | eaxSeal | eaxOpen =>
    obtain ⟨⟨hsame, _⟩, _⟩ := hrow
    exact .inl hsame
  | ccStream =>
    obtain ⟨hsame, _⟩ := hrow
    exact .inl hsame
  | ccNew rounds key nonce =>
    rw [runAt]
    rcases ccNew_verdict rounds key nonce s with ⟨_, h⟩ | ⟨_, _, h⟩ <;> rw [h]
    · exact .inr ⟨rfl, rounds, key, nonce, rfl⟩
    · exact .inl rfl

/-- Only `EAX_NEW` writes `EAX_VALID`, and only to set it (R30). -/
theorem runAt_EAX_VALID (P : Params) (i : Instr) (s : State) :
    (runAt P i s).EAX_VALID = s.EAX_VALID ∨ (runAt P i s).EAX_VALID = true ∧ ∃ tagSize, i = .eaxNew tagSize := by
  obtain ⟨_, _, hrow⟩ := runAt_leavesAlone P i s
  cases i with
  | ccXor | eaxSeal | eaxOpen =>
    obtain ⟨_, hsame, _⟩ := hrow
    exact .inl hsame
  | ccNew | eaxNonceSize | eaxOverhead =>
    obtain ⟨_, ⟨hsame, _⟩, _⟩ := hrow
    exact .inl hsame
  | ccStream =>
    obtain ⟨_, _, _, hsame, _⟩ := hrow
    exact .inl hsame
  | eaxNew tagSize =>
    rw [runAt]
    rcases eaxNew_verdict P tagSize s with ⟨_, h⟩ | ⟨_, _, h⟩ <;> rw [h]
    · exact .inr ⟨rfl, tagSize, rfl⟩
    · exact .inl rfl

/-- A bit that only a successful command of the kind `makes` sets, and that nothing but reset clears: what is asked of
each kind of move. -/
structure SetBy (bit : State → Bool) (makes : Instr → Prop) : Prop where
  take : ∀ s rest, bit { s with hostMoves := rest } = bit s
  raise : ∀ s st, bit (s.raise st) = bit s
  run : ∀ P i s, bit (runAt P i s) = bit s ∨ bit (runAt P i s) = true ∧ makes i
  write : ∀ s m, bit { s with BUF := m } = bit s
  reset : ∀ s, bit (resetEvent s) = false
  rekey : ∀ key s, bit (rekey key s) = bit s

theorem setBy_CC_VALID : SetBy State.CC_VALID fun i => ∃ rounds key nonce, i = .ccNew rounds key nonce where
  take _ _ := rfl
  raise := raise_CC_VALID
  run := runAt_CC_VALID
  write _ _ := rfl
  reset _ := rfl
  rekey := rekey_CC_VALID

theorem setBy_EAX_VALID : SetBy State.EAX_VALID fun i => ∃ tagSize, i = .eaxNew tagSize where
  take _ _ := rfl
  raise := raise_EAX_VALID
  run := runAt_EAX_VALID
  write _ _ := rfl
  reset _ := rfl
  rekey := rekey_EAX_VALID

/-- A move keeps such a bit, or is reset and clears it, or is the descriptor of a command that sets it. -/
theorem SetBy.moveAt_cases {bit : State → Bool} {makes : Instr → Prop} (hbit : SetBy bit makes) (F : Nat → Params)
    (m : HostMove) (s : State) :
    bit (moveAt F m s) = bit s ∨ (bit (moveAt F m s) = false ∧ m = .reset) ∨
      (bit (moveAt F m s) = true ∧ ∃ ws i, m = .issue ws ∧ decode ws = .command i ∧ makes i) := by
  cases m with
  | issue ws =>
    cases hdecode : decode ws with
    | illegal why => rw [moveAt_issue_illegal hdecode]; exact .inl (hbit.raise s _)
    | command i =>
      rw [moveAt_issue_command hdecode]
      exact (hbit.run _ i s).imp id fun ⟨hset, hmakes⟩ => .inr ⟨hset, ws, i, rfl, hdecode, hmakes⟩
  | write a bytes =>
    obtain ⟨m, hwrite⟩ := moveAt_write F a bytes s
    rw [hwrite]
    exact .inl (hbit.write s m)
  | reset => exact .inr (.inl ⟨hbit.reset s, rfl⟩)
  | rekey key => exact .inl (hbit.rekey key s)

/-- Such a bit in one step: which move cleared it, and which set it. -/
theorem SetBy.step_cases {bit : State → Bool} {makes : Instr → Prop} (hbit : SetBy bit makes) {s t : State}
    (hstep : step s = .next t) :
    bit t = bit s ∨ (bit t = false ∧ ∃ rest, s.hostMoves = .reset :: rest) ∨
      (bit t = true ∧ ∃ ws rest i, s.hostMoves = .issue ws :: rest ∧ decode ws = .command i ∧ makes i) := by
  rcases step_eq_next hstep with ⟨_, rfl⟩ | ⟨m, rest, hmoves, rfl⟩
  · exact .inl rfl
  · rcases hbit.moveAt_cases Config.params m { s with hostMoves := rest } with
      hsame | ⟨hclear, rfl⟩ | ⟨hset, ws, i, rfl, hdecode, hmakes⟩
    · exact .inl (hsame.trans (hbit.take s rest))
    · exact .inr (.inl ⟨hclear, rest, hmoves⟩)
    · exact .inr (.inr ⟨hset, ws, rest, i, hmoves, hdecode, hmakes⟩)

theorem SetBy.cleared {bit : State → Bool} {makes : Instr → Prop} (hbit : SetBy bit makes) {s t : State}
    (hstep : step s = .next t) (hs : bit s = true) (ht : bit t = false) : ∃ rest, s.hostMoves = .reset :: rest := by
  rcases hbit.step_cases hstep with h | ⟨_, h⟩ | ⟨h, _⟩
  · simp [hs, ht] at h
  · exact h
  · simp [ht] at h

theorem SetBy.set {bit : State → Bool} {makes : Instr → Prop} (hbit : SetBy bit makes) {s t : State}
    (hstep : step s = .next t) (hs : bit s = false) (ht : bit t = true) :
    ∃ ws rest i, s.hostMoves = .issue ws :: rest ∧ decode ws = .command i ∧ makes i := by
  rcases hbit.step_cases hstep with h | ⟨h, _⟩ | ⟨_, h⟩
  · simp [hs, ht] at h
  · simp [ht] at h
  · exact h

/-- Settles O46: each valid bit is set by its constructor command and cleared by reset, and by nothing else. -/
theorem validBitsChangeOnly : Obligations.ValidBitsChangeOnly := by
  intro s t hstep
  refine ⟨setBy_CC_VALID.cleared hstep, setBy_EAX_VALID.cleared hstep, fun hs ht => ?_, fun hs ht => ?_⟩
  · obtain ⟨ws, rest, _, hmoves, hdecode, rounds, key, nonce, rfl⟩ := setBy_CC_VALID.set hstep hs ht
    exact ⟨ws, rest, rounds, key, nonce, hmoves, hdecode⟩
  · obtain ⟨ws, rest, _, hmoves, hdecode, tagSize, rfl⟩ := setBy_EAX_VALID.set hstep hs ht
    exact ⟨ws, rest, tagSize, hmoves, hdecode⟩

end Sys2Proof.Machine
end

section
/-! SUPPORT. What `EAX_SEAL` and `EAX_OPEN` do past their checks (spec/43_eax.md R164, R165), with the calls on the
function ports apart from the rest: counter mode does the same whatever was driven before. -/

namespace Sys2Proof.Machine

/-- The first call of `E`, then those on the counter incremented. -/
theorem ctrCalls_succ (seed : List Byte) (q : Nat) : ctrCalls seed (q + 1) = .encrypt seed :: ctrCalls (ctrInc seed) q := by
  simp [ctrCalls, List.range_succ_eq_map, ctrAt, Function.comp_def]

/-- The loop does the same to registers and memory whatever the log holds, and appends its calls to the log. -/
theorem ctrChunks_withLog (P : Params) (d c : Nat) : ∀ (dst src n : Nat) (r : CtrRun) (log : List PortEvent),
    ctrChunks P d c dst src n { r with log := log } =
      { ctrChunks P d c dst src n r with log := log ++ ctrCalls r.ctr c } := by
  induction c with
  | zero => intro dst src n r log; simp [ctrChunks, ctrCalls]
  | succ c ih =>
    intro dst src n r log
    have hrest := ih (dst + min P.B n) (src + min P.B n) (n - min P.B n)
      ⟨ctrInc r.ctr, P.E r.ctr, r.mem.xorInto d dst src (min P.B n) (P.E r.ctr), r.log ++ [.encrypt r.ctr]⟩
      (log ++ [.encrypt r.ctr])
    rw [ctrCalls_succ, List.append_cons]
    exact hrest

/-- The loop seeded with `seed`, from a state whose log is `log`. -/
theorem seedAndXor_withLog (P : Params) (seed : List Byte) (dst src n : Nat) (s : State) (log : List PortEvent) :
    seedAndXor P seed dst src n { s with portLog := log } =
      { seedAndXor P seed dst src n s with portLog := log ++ ctrCalls seed (chunkCount P n) } := by
  have h := ctrChunks_withLog P s.draws (chunkCount P n) dst src n ⟨seed, s.KS, s.BUF, s.portLog⟩ log
  simp only [seedAndXor, ctrXor, h]

/-- The ciphertext that `EAX_SEAL` writes, read back (R164). -/
def sealedText (P : Params) (dst nonce text : Region) (s : State) : List Byte :=
  (seedAndXor P (authNonce P nonce s) dst.a text.a text.n s).BUF.readBytes s.draws dst.a text.n

/-- The tag that `EAX_SEAL` answers (R164, R172). -/
def sealTag (P : Params) (dst nonce text ad : Region) (s : State) : List Byte :=
  eaxTag s.TAGSIZE (authNonce P nonce s) (authData P ad s) (omac P 0x02 (sealedText P dst nonce text s))

/-- `EAX_SEAL` past its checks runs counter mode from `authNonce`, and answers the tag. -/
theorem sealEffect_eq (P : Params) (dst nonce text ad : Region) (s : State) :
    sealEffect P dst nonce text ad s =
      { seedAndXor P (authNonce P nonce s) dst.a text.a text.n s with
        portLog := s.portLog ++ omacEvents P 0x00 (s.operand nonce) ++ omacEvents P 0x01 (s.operand ad) ++
          ctrCalls (authNonce P nonce s) (chunkCount P text.n) ++ omacEvents P 0x02 (sealedText P dst nonce text s)
        draws := s.draws + 1 }.respond .ok text.len (sealTag P dst nonce text ad s) := by
  simp only [sealEffect, seedAndXor_withLog, sealTag, sealedText]

/-- An `EAX_SEAL` whose checks pass. -/
theorem eaxSeal_of_accepts {P : Params} {dst nonce text ad : Region} {s : State} (h : SealAccepts P dst nonce text ad s) :
    eaxSeal P dst nonce text ad s =
      { seedAndXor P (authNonce P nonce s) dst.a text.a text.n s with
        portLog := s.portLog ++ omacEvents P 0x00 (s.operand nonce) ++ omacEvents P 0x01 (s.operand ad) ++
          ctrCalls (authNonce P nonce s) (chunkCount P text.n) ++ omacEvents P 0x02 (sealedText P dst nonce text s)
        draws := s.draws + 1 }.respond .ok text.len (sealTag P dst nonce text ad s) :=
  (guarded_none (eaxSealFailure_none.2 h)).trans (sealEffect_eq P dst nonce text ad s)

/-- The three MAC evaluations of `EAX_OPEN`, appended to the log (R176). -/
def openMacLog (P : Params) (nonce text ad : Region) (s : State) : List PortEvent :=
  s.portLog ++ omacEvents P 0x00 (s.operand nonce) ++ omacEvents P 0x01 (s.operand ad) ++ omacEvents P 0x02 (openBody text s)

/-- On a match `EAX_OPEN` runs counter mode from `authNonce` over the body. -/
theorem openEffect_of_match {P : Params} {nonce text ad : Region} {s : State}
    (htag : expectedTag P nonce text ad s = receivedTag text s) (dst : Region) :
    openEffect P dst nonce text ad s =
      { seedAndXor P (authNonce P nonce s) dst.a text.a (text.n - s.TAGSIZE) s with
        portLog := openMacLog P nonce text ad s ++ ctrCalls (authNonce P nonce s) (chunkCount P (text.n - s.TAGSIZE))
        draws := s.draws + 1 }.respond .ok (BitVec.ofNat 32 (text.n - s.TAGSIZE)) [] := by
  rcases openEffect_cases P dst nonce text ad s with ⟨_, heffect⟩ | ⟨hne, _⟩
  · simp only [heffect, seedAndXor_withLog, openMacLog]
  · exact absurd htag hne

/-- On a mismatch `EAX_OPEN` raises `ST_AUTH_FAIL`. -/
theorem openEffect_of_mismatch {P : Params} {nonce text ad : Region} {s : State}
    (htag : expectedTag P nonce text ad s ≠ receivedTag text s) (dst : Region) :
    openEffect P dst nonce text ad s =
      { s with portLog := openMacLog P nonce text ad s, draws := s.draws + 1 }.raise .authFail := by
  rcases openEffect_cases P dst nonce text ad s with ⟨heq, _⟩ | ⟨_, heffect⟩
  · exact absurd heq htag
  · exact heffect

/-- An `EAX_OPEN` whose checks pass has its effect. -/
theorem eaxOpen_of_accepts {P : Params} {dst nonce text ad : Region} {s : State} (h : OpenAccepts P dst nonce text ad s) :
    eaxOpen P dst nonce text ad s = openEffect P dst nonce text ad s :=
  guarded_none (eaxOpenFailure_none.2 h)

/-- What `EAX_SEAL` does to registers and memory is nothing, or, its checks passed, counter mode from a MAC sum over the
text. -/
theorem eaxSeal_core_cases (P : Params) (dst nonce text ad : Region) (s : State) :
    (∃ r, eaxSeal P dst nonce text ad s = { s with respPort := r }) ∨
      SealAccepts P dst nonce text ad s ∧ ∃ l d r, eaxSeal P dst nonce text ad s =
        { seedAndXor P (authNonce P nonce s) dst.a text.a text.n s with portLog := l, draws := d, respPort := r } := by
  rcases eaxSeal_verdict P dst nonce text ad s with ⟨haccepts, _⟩ | ⟨_, _, h⟩
  · exact .inr ⟨haccepts, _, _, _, eaxSeal_of_accepts haccepts⟩
  · exact .inl ⟨_, h⟩

/-- The same for `EAX_OPEN`, whose text is the body. -/
theorem eaxOpen_core_cases (P : Params) (dst nonce text ad : Region) (s : State) :
    (∃ l d r, eaxOpen P dst nonce text ad s = { s with portLog := l, draws := d, respPort := r }) ∨
      OpenAccepts P dst nonce text ad s ∧ ∃ l d r, eaxOpen P dst nonce text ad s =
        { seedAndXor P (authNonce P nonce s) dst.a text.a (text.n - s.TAGSIZE) s with
          portLog := l, draws := d, respPort := r } := by
  rcases eaxOpen_verdict P dst nonce text ad s with ⟨haccepts, _⟩ | ⟨_, _, h⟩
  · by_cases htag : expectedTag P nonce text ad s = receivedTag text s
    · exact .inr ⟨haccepts, _, _, _, (eaxOpen_of_accepts haccepts).trans (openEffect_of_match htag dst)⟩
    · exact .inl ⟨_, _, _, (eaxOpen_of_accepts haccepts).trans (openEffect_of_mismatch htag dst)⟩
  · exact .inl ⟨_, _, _, h⟩

end Sys2Proof.Machine
end

section
/-! SUPPORT. What the XOR loops write, from any state and wherever their ranges lie: the extent and nothing else, in
canonical form (spec/20_memory.md R50, R58). The memory invariant follows. -/

namespace Sys2Proof.Machine

/-- From `m` to `m'` no byte outside the `n` bytes at `dst` was written, and the canonical form was kept. -/
structure WritesExtent (m m' : Memory) (dst n : Nat) : Prop where
  wf : m.wf → m'.wf
  mem : ∀ c ∈ m', (dst ≤ c.1 ∧ c.1 < dst + n) ∨ c ∈ m
  outside : ∀ a, (a < dst ∨ dst + n ≤ a) → m'.get? a = m.get? a

namespace WritesExtent

protected theorem refl (m : Memory) (dst n : Nat) : WritesExtent m m dst n :=
  ⟨id, fun _ => .inr, fun _ _ => rfl⟩

protected theorem trans {m m1 m2 : Memory} {dst n : Nat} (h1 : WritesExtent m m1 dst n) (h2 : WritesExtent m1 m2 dst n) :
    WritesExtent m m2 dst n where
  wf := h2.wf ∘ h1.wf
  mem c hc := (h2.mem c hc).elim .inl (h1.mem c)
  outside a ha := (h2.outside a ha).trans (h1.outside a ha)

/-- A smaller extent is a stronger claim. -/
theorem mono {m m' : Memory} {dst n dst' n' : Nat} (h : WritesExtent m m' dst n) (hlow : dst' ≤ dst)
    (hhigh : dst + n ≤ dst' + n') : WritesExtent m m' dst' n' where
  wf := h.wf
  mem c hc := (h.mem c hc).imp_left fun hin => by omega
  outside a ha := h.outside a (by omega)

/-- A string of at most `n` bytes. -/
theorem writeBytes (m : Memory) {dst n : Nat} {bytes : List Byte} (hn : bytes.length ≤ n) :
    WritesExtent m (m.writeBytes dst bytes) dst n where
  wf := Memory.wf_writeBytes bytes dst
  mem c hc := (Memory.mem_writeBytes bytes hc).imp_left fun hin => by omega
  outside a ha := by rw [Memory.get?_writeBytes, if_neg (by omega)]

/-- One chunk of an XOR loop. -/
theorem xorInto (m : Memory) (d dst src n : Nat) (ks : List Byte) : WritesExtent m (m.xorInto d dst src n ks) dst n :=
  writeBytes m (by simp [xorBytes])

/-- The loop over full 64-byte chunks. -/
theorem xorBlocks (d rounds q : Nat) : ∀ (dst src : Nat) (x : ChaState) (m : Memory),
    WritesExtent m (xorBlocks d rounds q dst src x m).2 dst (64 * q) := by
  induction q with
  | zero => exact fun dst _ _ m => .refl m dst _
  | succ q ih =>
    intro dst src x m
    have hfirst := xorInto m d dst src 64 (chachaBlock x rounds).1.toList
    exact (hfirst.mono le_rfl (by omega)).trans ((ih (dst + 64) (src + 64) _ _).mono (by omega) (by omega))

/-- `CC_XOR`. -/
theorem ccXorMem (d rounds : Nat) (x : ChaState) (dst src n : Nat) (m : Memory) :
    WritesExtent m (ccXorMem d rounds x dst src n m) dst n := by
  have hblocks := (xorBlocks d rounds (n / 64) dst src x m).mono (n' := n) le_rfl (by omega)
  simp only [Machine.ccXorMem]
  split
  · exact hblocks.trans ((xorInto _ d _ _ (n % 64) _).mono (by omega) (by omega))
  · exact hblocks

theorem streamLeftover (dst src n : Nat) (s : State) :
    WritesExtent s.BUF (streamLeftover dst src n s).BUF dst (leftoverLen n s) := by
  simp only [Machine.streamLeftover, leftoverLen]
  split
  · exact xorInto _ _ _ _ _ _
  · exact .refl _ _ _

theorem streamBlocks (dst src n : Nat) (s : State) :
    WritesExtent s.BUF (streamBlocks dst src n s).BUF dst (64 * (n / 64)) :=
  xorBlocks _ _ _ _ _ _ _

theorem streamFinal (dst src r : Nat) (s : State) : WritesExtent s.BUF (streamFinal dst src r s).BUF dst r := by
  simp only [Machine.streamFinal]
  split
  · exact xorInto _ _ _ _ _ _
  · exact .refl _ _ _

/-- `CC_STREAM`. -/
theorem streamXor (dst src n : Nat) (s : State) : WritesExtent s.BUF (streamXor dst src n s).BUF dst n := by
  have hle := leftoverLen_le n s
  have hleftover := streamLeftover dst src n s
  simp only [Machine.streamXor]
  generalize leftoverLen n s = i at *
  refine (hleftover.mono le_rfl (by omega)).trans (.trans ?_ ((streamFinal _ _ _ _).mono (by omega) (by omega)))
  exact (streamBlocks _ _ _ _).mono (by omega) (by omega)

/-- The counter-mode loop. -/
theorem ctrChunks (P : Params) (d c : Nat) : ∀ (dst src n : Nat) (r : CtrRun),
    WritesExtent r.mem (ctrChunks P d c dst src n r).mem dst n := by
  induction c with
  | zero => exact fun dst _ n r => .refl r.mem dst n
  | succ c ih =>
    intro dst src n r
    have hfirst := xorInto r.mem d dst src (min P.B n) (P.E r.ctr)
    have hrest := ih (dst + min P.B n) (src + min P.B n) (n - min P.B n)
      ⟨ctrInc r.ctr, P.E r.ctr, r.mem.xorInto d dst src (min P.B n) (P.E r.ctr), r.log ++ [.encrypt r.ctr]⟩
    exact (hfirst.mono le_rfl (by omega)).trans (hrest.mono (by omega) (by omega))

theorem seedAndXor (P : Params) (seed : List Byte) (dst src n : Nat) (s : State) :
    WritesExtent s.BUF (seedAndXor P seed dst src n s).BUF dst n :=
  ctrChunks P s.draws (chunkCount P n) dst src n ⟨seed, s.KS, s.BUF, s.portLog⟩

end WritesExtent

/-! The memory invariant -/

/-- The memory invariant speaks of `BUF` only. -/
theorem MemInv.of_BUF_eq {P : Sizes} {s t : State} (hs : MemInv P s) (h : t.BUF = s.BUF) : MemInv P t := by
  rwa [MemInv, h]

/-- A write of an extent inside `BUF` keeps the memory invariant. -/
theorem MemInv.of_writesExtent {P : Sizes} {s t : State} {dst n : Nat} (hs : MemInv P s)
    (h : WritesExtent s.BUF t.BUF dst n) (hin : dst + n ≤ P.BUF_SIZE) : MemInv P t := by
  obtain ⟨hwf, hlt⟩ := hs
  refine ⟨h.wf hwf, fun c hc => ?_⟩
  rcases h.mem c hc with hext | hold
  · omega
  · exact hlt c hold

/-- Every command keeps the memory invariant. -/
theorem runAt_memInv (P : Params) (i : Instr) {s : State} (hs : MemInv P.toSizes s) : MemInv P.toSizes (runAt P i s) := by
  obtain ⟨_, _, hrow⟩ := runAt_leavesAlone P i s
  cases i with
  | ccXor rounds counter key nonce dst src =>
    rw [runAt]
    rcases ccXor_verdict P rounds counter key nonce dst src s with ⟨⟨hcap, _, ⟨hdst, _⟩, _⟩, h⟩ | ⟨_, _, h⟩ <;> rw [h]
    · exact hs.of_writesExtent (.ccXorMem _ _ _ _ _ _ _) ((Nat.add_le_add_left hcap _).trans hdst)
    · exact hs
  | ccNew =>
    obtain ⟨_, _, hBUF⟩ := hrow
    exact hs.of_BUF_eq hBUF
  | ccStream dst src =>
    rw [runAt]
    rcases ccStream_verdict P dst src s with ⟨⟨_, hcap, ⟨hdst, _⟩, _⟩, h⟩ | ⟨_, _, h⟩ <;> rw [h]
    · exact hs.of_writesExtent (.streamXor _ _ _ _) ((Nat.add_le_add_left hcap _).trans hdst)
    · exact hs
  | eaxNew =>
    obtain ⟨_, hBUF⟩ := hrow
    exact hs.of_BUF_eq hBUF
  | eaxNonceSize | eaxOverhead =>
    obtain ⟨_, _, hBUF, _⟩ := hrow
    exact hs.of_BUF_eq hBUF
  | eaxSeal dst nonce text ad =>
    rw [runAt]
    rcases eaxSeal_core_cases P dst nonce text ad s with ⟨_, h⟩ | ⟨⟨_, _, hcap, ⟨hdst, _⟩, _⟩, _, _, _, h⟩ <;> rw [h]
    · exact hs
    · exact hs.of_writesExtent (WritesExtent.seedAndXor P _ _ _ _ s) ((Nat.add_le_add_left hcap _).trans hdst)
  | eaxOpen dst nonce text ad =>
    rw [runAt]
    rcases eaxOpen_core_cases P dst nonce text ad s with ⟨_, _, _, h⟩ | ⟨⟨_, _, _, hcap, ⟨hdst, _⟩, _⟩, _, _, _, h⟩ <;> rw [h]
    · exact hs
    · exact hs.of_writesExtent (WritesExtent.seedAndXor P _ _ _ _ s) ((Nat.add_le_add_left hcap _).trans hdst)

theorem resetEvent_memInv (P : Sizes) (s : State) : MemInv P (resetEvent s) := ⟨wf_reset, nofun⟩

/-- Settles O53: every write of a command, and of the host, is an extent inside `BUF`. -/
theorem stepKeepsMemory : Obligations.StepKeepsMemory := fun _ _ =>
  step_keeps (fun _ _ => id) fun m _ => moveAt_keeps (fun _ => id) (fun i s => runAt_memInv (Config.params s.attached) i)
    (fun _ _ s hin hs => hs.of_writesExtent (.writeBytes s.BUF le_rfl) hin) (resetEvent_memInv _) (fun _ _ => id) m

/-- Settles O54: the memory of the reset state is empty. -/
theorem resetMemory : Obligations.ResetMemory := ⟨wf_reset, nofun⟩

/-! The stream context -/

theorem AtPosition.of_sameStream {key : Vector Word 8} {nonce : Vector Word 3} {rounds p : Nat} {s t : State}
    (h : AtPosition key nonce rounds p s) (hsame : SameStream s t) : AtPosition key nonce rounds p t := by
  obtain ⟨hvalid, hS, hKB, hOFF, hrounds⟩ := hsame
  rwa [AtPosition, hvalid, hS, hKB, hOFF, hrounds]

theorem StreamInv.of_sameStream {s t : State} (h : StreamInv s) (hsame : SameStream s t) : StreamInv t := by
  have ⟨hvalid, _, _, _, hrounds⟩ := hsame
  intro ht
  obtain ⟨hbounds, key, nonce, p, hat⟩ := h (hvalid ▸ ht)
  rw [hrounds]
  exact ⟨hbounds, key, nonce, p, hat.of_sameStream hsame⟩

/-- A valid round count lies in the range that the register `ROUNDS` keeps (R25, R116). -/
theorem ValidRounds.bounds {rounds : Word} (h : ValidRounds rounds) :
    0 < (roundsOf rounds).toNat ∧ (roundsOf rounds).toNat % 2 = 0 ∧ (roundsOf rounds).toNat ≤ 2 ^ 31 - 2 := by
  obtain ⟨hpos, heven⟩ := h
  have hlt : rounds.toInt < 2 ^ 31 := BitVec.toInt_lt
  simp only [roundsOf]
  omega

/-- A successful `CC_NEW` stands at the start of a keystream (R132). -/
theorem ccNew_atPosition {rounds : Word} (h : ValidRounds rounds) (key : Vector Word 8) (nonce : Vector Word 3) (s : State) :
    AtPosition key nonce (roundsOf rounds).toNat 0 (ccNew rounds key nonce s) := by
  rw [ccNew_of_validRounds h]
  exact ⟨rfl, rfl, rfl, rfl, fun hoff => absurd rfl hoff⟩

/-- A `CC_STREAM` whose checks pass (R133). -/
theorem ccStream_of_accepts {P : Params} {dst src : Region} {s : State} (h : CcStreamAccepts P dst src s) :
    ccStream P dst src s = { streamXor dst.a src.a src.n s with draws := s.draws + 1 }.respond .ok src.len [] :=
  guarded_none (ccStreamFailure_none.2 h)

/-- A `CC_STREAM` whose checks pass moves on by its length, and writes the keystream of where it stood (R27, R133). -/
theorem ccStream_spec {P : Params} {key : Vector Word 8} {nonce : Vector Word 3} {rounds p : Nat} {dst src : Region}
    {s : State} (hat : AtPosition key nonce rounds p s) (h : CcStreamAccepts P dst src s) :
    AtPosition key nonce rounds (p + src.n) (ccStream P dst src s) ∧
    XoredInto s.BUF (ccStream P dst src s).BUF s.draws dst.a src.a src.n (fun j => kstream key nonce 0 rounds (p + j)) := by
  have ⟨_, _, _, hinplace⟩ := h
  rw [ccStream_of_accepts h]
  obtain ⟨hnext, hxor⟩ := streamXor_spec hat dst.a src.a src.n (hinplace.noSmear le_rfl)
  exact ⟨hnext.of_sameStream ⟨rfl, rfl, rfl, rfl, rfl⟩, hxor⟩

/-- Every command keeps the stream context in place. -/
theorem runAt_streamInv (P : Params) (i : Instr) {s : State} (hs : StreamInv s) : StreamInv (runAt P i s) := by
  cases i with
  | ccNew rounds key nonce =>
    by_cases hrounds : ValidRounds rounds
    · have hat := ccNew_atPosition hrounds key nonce s
      have ⟨_, hR, _⟩ := hat
      intro _
      rw [runAt, hR]
      exact ⟨hrounds.bounds, key, nonce, 0, hat⟩
    · rw [runAt, ccNew_of_not_validRounds hrounds]
      exact hs
  | ccStream dst src =>
    rcases ccStream_verdict P dst src s with ⟨haccepts, _⟩ | ⟨_, _, h⟩
    · obtain ⟨hbounds, key, nonce, p, hat⟩ := hs haccepts.1
      have hnext := (ccStream_spec hat haccepts).1
      have ⟨_, hR, _⟩ := hnext
      intro _
      rw [runAt, hR]
      exact ⟨hbounds, key, nonce, _, hnext⟩
    · rw [runAt, h]
      exact hs
  | ccXor | eaxNew | eaxNonceSize | eaxOverhead | eaxSeal | eaxOpen =>
    exact hs.of_sameStream (runAt_sameStream P s nofun nofun)

/-- Settles O55: `CC_NEW` starts a keystream, `CC_STREAM` moves on in it, and no other command writes the context. -/
theorem stepKeepsStreamPosition : Obligations.StepKeepsStreamPosition := fun _ _ =>
  step_keeps (fun _ _ => id) fun m _ => moveAt_keeps (fun _ => id) (fun i s => runAt_streamInv (Config.params s.attached) i)
    (fun _ _ _ _ => id) (fun _ => nofun) (fun _ _ => id) m

/-- Settles O56: the stream context of the reset state is not valid. -/
theorem resetStreamPosition : Obligations.ResetStreamPosition := nofun

/-! The EAX context -/

theorem EaxInv.of_sameEax {P : Sizes} {s t : State} (h : EaxInv P s) (hsame : SameEax s t) : EaxInv P t := by
  obtain ⟨hvalid, htag, hctr, hks⟩ := hsame
  rwa [EaxInv, hvalid, htag, hctr, hks]

/-- A tag size that `EAX_NEW` accepts lies in the range that the register `TAGSIZE` keeps (R31, R161). -/
theorem EaxNewAccepts.bounds {P : Params} {tagSize : Word} (h : EaxNewAccepts P tagSize) :
    1 ≤ (tagSizeOf tagSize).toNat ∧ (tagSizeOf tagSize).toNat ≤ P.B ∧ (tagSizeOf tagSize).toNat < 2 ^ 31 := by
  obtain ⟨_, hlow, hhigh⟩ := h
  have hlt : tagSize.toInt < 2 ^ 31 := BitVec.toInt_lt
  simp only [tagSizeOf]
  omega

/-- The counter-mode loop keeps its two registers at `B` bytes. -/
theorem ctrChunks_lengths (P : Params) (d c : Nat) : ∀ (dst src n : Nat) (r : CtrRun), r.ctr.length = P.B → r.ks.length = P.B →
    (ctrChunks P d c dst src n r).ctr.length = P.B ∧ (ctrChunks P d c dst src n r).ks.length = P.B := by
  induction c with
  | zero => exact fun _ _ _ _ hctr hks => ⟨hctr, hks⟩
  | succ c ih =>
    intro dst src n r hctr _
    exact ih _ _ _ _ (by rw [ctrInc_length, hctr]) (P.E_length r.ctr)

/-- Counter mode from a seed of `B` bytes keeps the invariant of the EAX context. -/
theorem EaxInv.seedAndXor {P : Params} {s : State} (hs : EaxInv P.toSizes s) {seed : List Byte} (hseed : seed.length = P.B)
    (dst src n : Nat) : EaxInv P.toSizes (seedAndXor P seed dst src n s) := by
  obtain ⟨_, hks, htag⟩ := hs
  obtain ⟨hctr', hks'⟩ := ctrChunks_lengths P s.draws (chunkCount P n) dst src n ⟨seed, s.KS, s.BUF, s.portLog⟩ hseed hks
  exact ⟨hctr', hks', htag⟩

/-- Every command keeps the invariant of the EAX context. -/
theorem runAt_eaxInv (P : Params) (i : Instr) {s : State} (hs : EaxInv P.toSizes s) : EaxInv P.toSizes (runAt P i s) := by
  obtain ⟨_, _, hrow⟩ := runAt_leavesAlone P i s
  cases i with
  | ccXor => exact hs.of_sameEax hrow.2
  | ccNew | eaxNonceSize | eaxOverhead =>
    obtain ⟨_, hsame, _⟩ := hrow
    exact hs.of_sameEax hsame
  | ccStream =>
    obtain ⟨_, _, _, hsame⟩ := hrow
    exact hs.of_sameEax hsame
  | eaxNew tagSize =>
    rw [runAt]
    rcases eaxNew_verdict P tagSize s with ⟨haccepts, h⟩ | ⟨_, _, h⟩ <;> rw [h]
    · exact ⟨by simp, by simp, fun _ => haccepts.bounds⟩
    · exact hs
  | eaxSeal dst nonce text ad =>
    rw [runAt]
    rcases eaxSeal_core_cases P dst nonce text ad s with ⟨_, h⟩ | ⟨_, _, _, _, h⟩ <;> rw [h]
    · exact hs
    · exact hs.seedAndXor (omac_length P 0x00 _) dst.a text.a text.n
  | eaxOpen dst nonce text ad =>
    rw [runAt]
    rcases eaxOpen_core_cases P dst nonce text ad s with ⟨_, _, _, h⟩ | ⟨_, _, _, _, h⟩ <;> rw [h]
    · exact hs
    · exact hs.seedAndXor (omac_length P 0x00 _) dst.a text.a (text.n - s.TAGSIZE)

/-- Settles O57: `EAX_NEW` bounds the tag size, and the counter-mode loop writes both registers at the block size. -/
theorem stepKeepsEaxContext : Obligations.StepKeepsEaxContext := fun _ _ =>
  step_keeps (fun _ _ => id) fun m _ => moveAt_keeps (fun _ => id) (fun i s => runAt_eaxInv (Config.params s.attached) i)
    (fun _ _ _ _ => id) (fun _ => ⟨by simp [resetEvent, State.reset], by simp [resetEvent, State.reset], nofun⟩) (fun _ _ => id) m

/-- Settles O58: the two registers hold `B` zeros, and the context is not valid. -/
theorem resetEaxContext : Obligations.ResetEaxContext :=
  ⟨by simp [State.reset], by simp [State.reset], nofun⟩

end Sys2Proof.Machine
end

section
/-! SUPPORT. The order of the entry checks (spec/60_exceptions.md R197): each command's list as the chain of the
conditions under which it fails. -/

namespace Sys2Proof.Machine

/-- A check at the head of the list, its condition written as a proposition. -/
theorem firstFailure_cons_iff {b : Bool} {p : Prop} [Decidable p] (h : b = true ↔ p) (st : Status)
    (rest : List (Bool × Status)) : firstFailure ((b, st) :: rest) = if p then some st else firstFailure rest := by
  simp only [firstFailure_cons, h]

theorem not_roundsValid_iff (w : Word) : (!roundsValid w) = true ↔ ¬ValidRounds w := by
  rw [← roundsValid_iff, Bool.not_eq_true', Bool.not_eq_true]

theorem not_regionsInrange_iff (P : Params) (dst src : Region) :
    (!(regionInrange P dst && regionInrange P src)) = true ↔ ¬(InBuf P dst ∧ InBuf P src) := by
  rw [← regionInrange_iff, ← regionInrange_iff, ← Bool.and_eq_true, Bool.not_eq_true', Bool.not_eq_true]

theorem not_eaxRegionsInrange_iff (P : Params) (dst nonce text ad : Region) :
    (!(regionInrange P dst && regionInrange P nonce && regionInrange P text && regionInrange P ad)) = true ↔
      ¬(InBuf P dst ∧ InBuf P nonce ∧ InBuf P text ∧ InBuf P ad) := by
  simp only [← regionInrange_iff, ← Bool.and_eq_true, ← Bool.and_assoc, Bool.not_eq_true', Bool.not_eq_true]

theorem aliasText_eq_true_iff (dst n : Nat) (r : Region) : aliasText dst n r = true ↔ ¬InPlaceOrApart dst n r := by
  rw [← aliasText_iff, Bool.not_eq_false]

theorem eaxAlias_iff (dst n : Nat) (nonce text ad : Region) :
    (aliasOther dst n nonce || aliasOther dst n ad || aliasText dst n text) = true ↔
      ¬(Apart dst n nonce ∧ Apart dst n ad ∧ InPlaceOrApart dst n text) := by
  rw [← aliasText_iff, ← aliasOther_iff, ← aliasOther_iff, ← Bool.or_eq_false_iff, ← Bool.or_eq_false_iff,
    ← Bool.or_assoc, Bool.not_eq_false]

theorem not_valid_iff (v : Bool) : (!v) = true ↔ v = false := by simp

/-- The checks of `CC_XOR` (R130). -/
theorem ccXorFailure_eq (P : Params) (rounds : Word) (dst src : Region) :
    ccXorFailure P rounds dst src =
      if dst.n < src.n then some .invalidParam
      else if ¬ValidRounds rounds then some .invalidParam
      else if ¬(InBuf P dst ∧ InBuf P src) then some .badAddress
      else if ¬InPlaceOrApart dst.a src.n src then some .badAlias
      else none := by
  rw [ccXorFailure, firstFailure_cons_iff decide_eq_true_iff, firstFailure_cons_iff (not_roundsValid_iff rounds),
    firstFailure_cons_iff (not_regionsInrange_iff P dst src), firstFailure_cons_iff (aliasText_eq_true_iff dst.a src.n src)]
  rfl

/-- The checks of `CC_STREAM` (R133). -/
theorem ccStreamFailure_eq (P : Params) (dst src : Region) (s : State) :
    ccStreamFailure P dst src s =
      if s.CC_VALID = false then some .noContext
      else if dst.n < src.n then some .invalidParam
      else if ¬(InBuf P dst ∧ InBuf P src) then some .badAddress
      else if ¬InPlaceOrApart dst.a src.n src then some .badAlias
      else none := by
  rw [ccStreamFailure, firstFailure_cons_iff (not_valid_iff s.CC_VALID), firstFailure_cons_iff decide_eq_true_iff,
    firstFailure_cons_iff (not_regionsInrange_iff P dst src), firstFailure_cons_iff (aliasText_eq_true_iff dst.a src.n src)]
  rfl

/-- The checks of `EAX_NEW` (R161). -/
theorem eaxNewFailure_eq (P : Params) (tagSize : Word) :
    eaxNewFailure P tagSize =
      if P.MAC_SUPPORTED = false then some .unsupportedCipher
      else if tagSize.toInt < 1 ∨ (P.B : Int) < tagSize.toInt then some .invalidParam
      else none := by
  rw [eaxNewFailure, firstFailure_cons_iff (not_valid_iff P.MAC_SUPPORTED), firstFailure_cons_iff decide_eq_true_iff]
  rfl

/-- The checks of `EAX_SEAL` (R164). -/
theorem eaxSealFailure_eq (P : Params) (dst nonce text ad : Region) (s : State) :
    eaxSealFailure P dst nonce text ad s =
      if s.EAX_VALID = false then some .noContext
      else if nonce.n ≠ P.B then some .invalidParam
      else if dst.n < text.n then some .invalidParam
      else if ¬(InBuf P dst ∧ InBuf P nonce ∧ InBuf P text ∧ InBuf P ad) then some .badAddress
      else if ¬(Apart dst.a text.n nonce ∧ Apart dst.a text.n ad ∧ InPlaceOrApart dst.a text.n text) then some .badAlias
      else none := by
  rw [eaxSealFailure, firstFailure_cons_iff (not_valid_iff s.EAX_VALID), firstFailure_cons_iff decide_eq_true_iff,
    firstFailure_cons_iff decide_eq_true_iff, firstFailure_cons_iff (not_eaxRegionsInrange_iff P dst nonce text ad),
    firstFailure_cons_iff (eaxAlias_iff dst.a text.n nonce text ad)]
  rfl

/-- The checks of `EAX_OPEN` up to the tag comparison (R165). -/
theorem eaxOpenFailure_eq (P : Params) (dst nonce text ad : Region) (s : State) :
    eaxOpenFailure P dst nonce text ad s =
      if s.EAX_VALID = false then some .noContext
      else if nonce.n ≠ P.B then some .invalidParam
      else if text.n < s.TAGSIZE then some .authFail
      else if dst.n < text.n - s.TAGSIZE then some .invalidParam
      else if ¬(InBuf P dst ∧ InBuf P nonce ∧ InBuf P text ∧ InBuf P ad) then some .badAddress
      else if ¬(Apart dst.a (text.n - s.TAGSIZE) nonce ∧ Apart dst.a (text.n - s.TAGSIZE) ad ∧
        InPlaceOrApart dst.a (text.n - s.TAGSIZE) text) then some .badAlias
      else none := by
  rw [eaxOpenFailure, firstFailure_cons_iff (not_valid_iff s.EAX_VALID), firstFailure_cons_iff decide_eq_true_iff,
    firstFailure_cons_iff decide_eq_true_iff, firstFailure_cons_iff decide_eq_true_iff,
    firstFailure_cons_iff (not_eaxRegionsInrange_iff P dst nonce text ad),
    firstFailure_cons_iff (eaxAlias_iff dst.a _ nonce text ad)]
  rfl

/-- Settles O14: the chain of checks, entered at each of its four ends. -/
theorem ccXorRefusesInOrder : Obligations.CcXorRefusesInOrder := by
  intro rounds counter key nonce dst src s
  refine ⟨.of_runAt fun P h => ?_, .of_runAt fun P h => ?_, .of_runAt fun P h => ?_, .of_runAt fun P h => ?_⟩
  · exact guarded_some (by rw [ccXorFailure_eq, if_pos h])
  · obtain ⟨hcap, hrounds⟩ := h
    exact guarded_some (by rw [ccXorFailure_eq, if_neg hcap.not_gt, if_pos hrounds])
  · obtain ⟨hcap, hrounds, hin⟩ := h
    exact guarded_some (by rw [ccXorFailure_eq, if_neg hcap.not_gt, if_neg (not_not.2 hrounds), if_pos hin])
  · obtain ⟨hcap, hrounds, hin, halias⟩ := h
    exact guarded_some (by
      rw [ccXorFailure_eq, if_neg hcap.not_gt, if_neg (not_not.2 hrounds), if_neg (not_not.2 hin), if_pos halias])

/-- Settles O20: as for `CC_XOR`, after the check of the valid bit. -/
theorem ccStreamRefusesInOrder : Obligations.CcStreamRefusesInOrder := by
  intro dst src s
  refine ⟨.of_runAt fun P h => ?_, .of_runAt fun P h => ?_, .of_runAt fun P h => ?_, .of_runAt fun P h => ?_⟩
  · exact guarded_some (by rw [ccStreamFailure_eq, if_pos h])
  · obtain ⟨hvalid, hcap⟩ := h
    exact guarded_some (by simp [ccStreamFailure_eq, hvalid, hcap])
  · obtain ⟨hvalid, hcap, hin⟩ := h
    exact guarded_some (by rw [ccStreamFailure_eq, if_neg (by simp [hvalid]), if_neg hcap.not_gt, if_pos hin])
  · obtain ⟨hvalid, hcap, hin, halias⟩ := h
    exact guarded_some (by
      rw [ccStreamFailure_eq, if_neg (by simp [hvalid]), if_neg hcap.not_gt, if_neg (not_not.2 hin), if_pos halias])

/-- Settles O34: the chain of checks, entered at each of its five ends. -/
theorem eaxSealRefusesInOrder : Obligations.EaxSealRefusesInOrder := by
  intro dst nonce text ad s
  refine ⟨.of_runAt fun P h => ?_, .of_runAt fun P h => ?_, .of_runAt fun P h => ?_, .of_runAt fun P h => ?_,
    .of_runAt fun P h => ?_⟩
  · exact guarded_some (by rw [eaxSealFailure_eq, if_pos h])
  · obtain ⟨hvalid, hnonce⟩ := h
    exact guarded_some (by rw [eaxSealFailure_eq, if_neg (by simp [hvalid]), if_pos hnonce])
  · obtain ⟨hvalid, hnonce, hcap⟩ := h
    exact guarded_some (by rw [eaxSealFailure_eq, if_neg (by simp [hvalid]), if_neg (not_not.2 hnonce), if_pos hcap])
  · obtain ⟨hvalid, hnonce, hcap, hin⟩ := h
    exact guarded_some (by
      rw [eaxSealFailure_eq, if_neg (by simp [hvalid]), if_neg (not_not.2 hnonce), if_neg hcap.not_gt, if_pos hin])
  · obtain ⟨hvalid, hnonce, hcap, hin, halias⟩ := h
    exact guarded_some (by
      rw [eaxSealFailure_eq, if_neg (by simp [hvalid]), if_neg (not_not.2 hnonce), if_neg hcap.not_gt,
        if_neg (not_not.2 hin), if_pos halias])

/-- Settles O37: the chain of checks, entered at each of its six ends. -/
theorem eaxOpenRefusesInOrder : Obligations.EaxOpenRefusesInOrder := by
  intro dst nonce text ad s
  refine ⟨.of_runAt fun P h => ?_, .of_runAt fun P h => ?_, .of_runAt fun P h => ?_, .of_runAt fun P h => ?_,
    .of_runAt fun P h => ?_, .of_runAt fun P h => ?_⟩
  · exact guarded_some (by rw [eaxOpenFailure_eq, if_pos h])
  · obtain ⟨hvalid, hnonce⟩ := h
    exact guarded_some (by rw [eaxOpenFailure_eq, if_neg (by simp [hvalid]), if_pos hnonce])
  · exact guarded_some (eaxOpenFailure_eq_authFail_iff.2 h)
  · obtain ⟨hvalid, hnonce, hlong, hcap⟩ := h
    exact guarded_some (by
      rw [eaxOpenFailure_eq, if_neg (by simp [hvalid]), if_neg (not_not.2 hnonce), if_neg hlong.not_gt, if_pos hcap])
  · obtain ⟨hvalid, hnonce, hlong, hcap, hin⟩ := h
    exact guarded_some (by
      rw [eaxOpenFailure_eq, if_neg (by simp [hvalid]), if_neg (not_not.2 hnonce), if_neg hlong.not_gt,
        if_neg hcap.not_gt, if_pos hin])
  · obtain ⟨hvalid, hnonce, hlong, hcap, hin, halias⟩ := h
    exact guarded_some (by
      rw [eaxOpenFailure_eq, if_neg (by simp [hvalid]), if_neg (not_not.2 hnonce), if_neg hlong.not_gt,
        if_neg hcap.not_gt, if_neg (not_not.2 hin), if_pos halias])

end Sys2Proof.Machine
end

section
/-! SUPPORT. `EAX_NEW` and `EAX_NONCESIZE` (spec/43_eax.md R161, R162), and what can succeed with neither context valid
(spec/70_reset_and_hazards.md R221). -/

namespace Sys2Proof.Machine

/-- An `EAX_NEW` whose checks pass. -/
theorem eaxNew_of_accepts {P : Params} {tagSize : Word} (h : EaxNewAccepts P tagSize) (s : State) :
    eaxNew P tagSize s =
      { s with
          TAGSIZE := (tagSizeOf tagSize).toNat
          CTR := (List.range P.B).map (Config.freeByte s.draws)
          KS := (List.range P.B).map (Config.freeByte (s.draws + 1))
          EAX_VALID := true
          draws := s.draws + 2 }.respond .ok 0 [] :=
  guarded_none (eaxNewFailure_none.2 h)

/-- Settles O29: the fields of the filled context, and the two checks in their order. -/
theorem eaxNewFillsContext : Obligations.EaxNewFillsContext := by
  intro tagSize s
  refine ⟨.of_runAt fun P h => ?_, .of_runAt fun P h => ?_, .of_runAt fun P h => ?_⟩
  · have ⟨_, hlow, _⟩ := h
    have hsize : ((tagSizeOf tagSize).toNat : Int) = tagSize.toInt := Int.toNat_of_nonneg (by rw [tagSizeOf]; omega)
    rw [runAt, eaxNew_of_accepts h]
    exact ⟨hsize, rfl, by simp, by simp, rfl, ⟨rfl, rfl, rfl, rfl, rfl⟩, rfl, rfl, rfl⟩
  · exact guarded_some (by rw [eaxNewFailure_eq, if_pos h])
  · obtain ⟨hmac, hsize⟩ := h
    exact guarded_some (by rw [eaxNewFailure_eq, if_neg (by simp [hmac]), if_pos hsize])

/-- `EAX_NONCESIZE` in a valid context (R162). -/
theorem eaxNonceSize_of_valid (P : Params) {s : State} (h : s.EAX_VALID = true) :
    eaxNonceSize P s = s.respond .ok (nonceSizeValue P) [] :=
  guarded_none (eaxQueryFailure_none.2 h)

/-- `EAX_NONCESIZE` outside a context (R162). -/
theorem eaxNonceSize_of_not_valid (P : Params) {s : State} (h : s.EAX_VALID = false) :
    eaxNonceSize P s = s.raise .noContext :=
  guarded_some (eaxQueryFailure_of_not_valid h)

/-- Settles O30: the two outcomes, and a block size below `2 ^ 32` is its own word. -/
theorem eaxNonceSizeAnswersB : Obligations.EaxNonceSizeAnswersB := by
  intro s
  refine ⟨.of_runAt fun P h => eaxNonceSize_of_valid P h, fun P hB => ?_, .of_runAt fun P h => eaxNonceSize_of_not_valid P h⟩
  rw [nonceSizeValue, if_pos hB, BitVec.toNat_ofNat, Nat.mod_eq_of_lt hB]

/-! With neither context valid -/

/-- `CC_STREAM` without a stream context (R133). -/
theorem ccStream_of_not_valid (P : Params) (dst src : Region) {s : State} (h : s.CC_VALID = false) :
    ccStream P dst src s = s.raise .noContext :=
  guarded_some (by rw [ccStreamFailure_eq, if_pos h])

/-- `EAX_SEAL` outside an EAX context (R164). -/
theorem eaxSeal_of_not_valid (P : Params) (dst nonce text ad : Region) {s : State} (h : s.EAX_VALID = false) :
    eaxSeal P dst nonce text ad s = s.raise .noContext :=
  guarded_some (by rw [eaxSealFailure_eq, if_pos h])

/-- `EAX_OPEN` outside an EAX context (R165). -/
theorem eaxOpen_of_not_valid (P : Params) (dst nonce text ad : Region) {s : State} (h : s.EAX_VALID = false) :
    eaxOpen P dst nonce text ad s = s.raise .noContext :=
  guarded_some (by rw [eaxOpenFailure_eq, if_pos h])

/-- A `CC_XOR` whose checks pass (R130). -/
theorem ccXor_of_accepts {P : Params} {rounds : Word} {dst src : Region} (h : CcXorAccepts P rounds dst src) (counter : Word)
    (key : Vector Word 8) (nonce : Vector Word 3) (s : State) :
    ccXor P rounds counter key nonce dst src s =
      { s with
          BUF := ccXorMem s.draws (roundsOf rounds).toNat (chachaInit key nonce counter) dst.a src.a src.n s.BUF
          draws := s.draws + 1 }.respond .ok src.len [] :=
  guarded_none (ccXorFailure_none.2 h)

@[simp] theorem lastStatus_respond (s : State) (st : Status) (value : Word) (tag : List Byte) :
    lastStatus (s.respond st value tag) = some st := by
  simp [lastStatus]

/-- Settles O51: the five commands that need a context fail their first check, and the other three need none. -/
theorem commandsAfterReset : Obligations.CommandsAfterReset := by
  intro s hstream heax
  refine ⟨fun dst src nonce text ad => ?_, fun ws hillegal => answer_of_wellFormed_false hillegal s,
    fun rounds counter tagSize key nonce dst src => ⟨.of_runAt fun P h => ?_, .of_runAt fun P h => ?_, .of_runAt fun P h => ?_⟩⟩
  · simp only [exec_eq_runAt, runAt, ccStream_of_not_valid _ _ _ hstream, eaxNonceSize_of_not_valid _ heax,
      eaxOverhead_of_not_valid heax, eaxSeal_of_not_valid _ _ _ _ _ heax, eaxOpen_of_not_valid _ _ _ _ _ heax, and_self]
  · rw [runAt, ccXor_of_accepts h, lastStatus_respond]
  · rw [runAt, ccNew_of_validRounds h, lastStatus_respond]
  · rw [runAt, eaxNew_of_accepts h, lastStatus_respond]

/-! The MAC inputs and the chunk count -/

/-- Settles O28: the tag is the last byte of the first block, which is as long for every tag. -/
theorem macDomainsSeparated : Obligations.MacDomainsSeparated := by
  intro P t t' x y
  refine ⟨by simp, fun h => ?_⟩
  obtain ⟨hblock, hpayload⟩ := List.append_inj h (by simp)
  have htag : [t] = [t'] := List.append_cancel_left hblock
  exact ⟨List.singleton_inj.1 htag, hpayload⟩

/-- `q` blocks are `q` chunks, and a remainder shorter than a block is one more. -/
theorem chunkCount_blocks (P : Params) (q : Nat) {r : Nat} (hr : r < P.B) :
    chunkCount P (q * P.B + r) = q + chunkCount P r := by
  have hB := P.B_pos
  rw [chunkCount, chunkCount, show q * P.B + r + P.B - 1 = r + P.B - 1 + q * P.B by omega, Nat.add_mul_div_right _ _ hB,
    add_comm]

/-- Counter mode calls `E` once a chunk, wherever its ranges lie (R177). -/
theorem seedAndXor_portLog (P : Params) (seed : List Byte) (dst src n : Nat) (s : State) :
    (seedAndXor P seed dst src n s).portLog = s.portLog ++ ctrCalls seed (chunkCount P n) :=
  ctrChunks_log P s.draws (chunkCount P n) dst src n ⟨seed, s.KS, s.BUF, s.portLog⟩

/-- Settles O26: the chunk count of `q` blocks with and without a remainder, and one call of `E` a chunk. -/
theorem chunkCountOfLength : Obligations.ChunkCountOfLength := by
  intro P q r
  have hblocks : chunkCount P (q * P.B) = q := by
    simpa [chunkCount_zero] using chunkCount_blocks P q P.B_pos
  have hremainder (h0 : 0 < r) (hr : r < P.B) : chunkCount P (q * P.B + r) = q + 1 := by
    rw [chunkCount_blocks P q hr, chunkCount_last P h0 hr.le]
  refine ⟨⟨hblocks, hremainder⟩, fun seed dst src s => ⟨?_, fun h0 hr => ?_⟩⟩
  · rw [seedAndXor_portLog, hblocks]
  · rw [seedAndXor_portLog, hremainder h0 hr]

end Sys2Proof.Machine
end

section
/-! SUPPORT. Two XORs of memory with a keystream: one that undoes the other (R137, R153), and two over the parts of a range
that end like one over the whole (R135, R136). -/

namespace Sys2Proof.Machine

/-- The same XOR gives the same bytes. -/
theorem XoredInto.get?_eq {m m1 m2 : Memory} {d dst src n : Nat} {ks : Nat → Byte} (h1 : XoredInto m m1 d dst src n ks)
    (h2 : XoredInto m m2 d dst src n ks) (a : Nat) : m1.get? a = m2.get? a := by
  rw [h1, h2]

/-- The same keystream over the output gives the source back, whatever the second draw. -/
theorem XoredInto.restore {m m1 m2 : Memory} {d d' dst src back n : Nat} {ks : Nat → Byte}
    (h1 : XoredInto m m1 d dst src n ks) (h2 : XoredInto m1 m2 d' back dst n ks) {j : Nat} (hj : j < n) :
    m2.get? (back + j) = some (m.readByte d (src + j)) := by
  have hout : m1.readByte d' (dst + j) = m.readByte d (src + j) ^^^ ks j :=
    Memory.readByte_of_get? (by rw [h1, if_pos (by omega), Nat.add_sub_cancel_left])
  rw [h2, if_pos (by omega), Nat.add_sub_cancel_left, hout, BitVec.xor_assoc, BitVec.xor_self, BitVec.xor_zero]

/-- Over bytes that hold a value the draw does not matter (R222 (d)). -/
theorem XoredInto.redraw {m m' : Memory} {d dst src n : Nat} {ks : Nat → Byte} (h : XoredInto m m' d dst src n ks)
    (hwritten : SpanWritten m src n) (d' : Nat) : XoredInto m m' d' dst src n ks := by
  intro a
  rw [h]
  split
  · rw [Memory.readByte_draw (hwritten _ (by omega)) d d']
  · rfl

/-- What holds a value goes on holding one. -/
theorem SpanWritten.xored {m m' : Memory} {a k d dst src n : Nat} {ks : Nat → Byte} (hwritten : SpanWritten m a k)
    (h : XoredInto m m' d dst src n ks) : SpanWritten m' a k := by
  intro i hi
  rw [h]
  split
  · rfl
  · exact hwritten i hi

/-- One XOR over `n` bytes against two, over the first `i` of them and over the rest. -/
theorem XoredInto.split_get?_eq {m m1 m2 whole : Memory} {d d' dst src i n : Nat} {ks ks1 ks2 : Nat → Byte}
    (hwhole : XoredInto m whole d dst src n ks) (h1 : XoredInto m m1 d dst src i ks1)
    (h2 : XoredInto m1 m2 d' (dst + i) (src + i) (n - i) ks2) (hi : i ≤ n) (hsmear : NoSmear dst src n)
    (hwritten : SpanWritten m src n) (hks1 : ∀ p, p < i → ks1 p = ks p) (hks2 : ∀ p, i + p < n → ks2 p = ks (i + p))
    (a : Nat) : m2.get? a = whole.get? a := by
  have hrest : SpanWritten m1 (src + i) (n - i) := fun j hj => by
    rw [Nat.add_assoc]
    exact hwritten.xored h1 (i + j) (by omega)
  have happend := h1.append (h2.redraw hrest d) (by rwa [Nat.add_sub_cancel' hi])
  rw [Nat.add_sub_cancel' hi] at happend
  refine (happend.congr fun p hp => ?_).get?_eq hwhole a
  split
  · exact hks1 p ‹_›
  · rw [hks2 (p - i) (by omega), Nat.add_sub_cancel' (by omega)]

/-- A part of a source and of an extent, at the same distance from their starts, passes the checks of the whole. -/
theorem accepts_part {P : Params} {dst src dst' src' : Region} {i : Nat} (hcap : src.n ≤ dst.n)
    (hin : InBuf P dst ∧ InBuf P src) (hinplace : InPlaceOrApart dst.a src.n src) (hdst : dst'.a = dst.a + i)
    (hsrc : src'.a = src.a + i) (hn : dst'.n = src'.n) (hpart : i + src'.n ≤ src.n) :
    src'.n ≤ dst'.n ∧ (InBuf P dst' ∧ InBuf P src') ∧ InPlaceOrApart dst'.a src'.n src' := by
  simp only [InBuf, InPlaceOrApart, Apart, hdst, hsrc, hn] at *
  refine ⟨le_rfl, by omega, ?_⟩
  rcases hinplace with heq | h | h | h | h
  · exact .inl (by rw [heq])
  · exact .inr (.inl (by omega))
  · exact .inr (.inl (by omega))
  · exact .inr (.inr (.inr (.inl (by omega))))
  · exact .inr (.inr (.inr (.inr (by omega))))

end Sys2Proof.Machine
end

section
/-! SUPPORT. `CC_XOR` (spec/41_chacha_xor.md R130, R136, R137). -/

namespace Sys2Proof.Machine

/-- What a `CC_XOR` whose checks pass does to memory (R130). -/
theorem ccXor_xoredInto {P : Params} {rounds : Word} {dst src : Region} (h : CcXorAccepts P rounds dst src) (counter : Word)
    (key : Vector Word 8) (nonce : Vector Word 3) (s : State) :
    XoredInto s.BUF (ccXor P rounds counter key nonce dst src s).BUF s.draws dst.a src.a src.n
      (kstream key nonce counter rounds.toInt.toNat) := by
  have ⟨_, _, _, hinplace⟩ := h
  rw [ccXor_of_accepts h]
  exact (ccXorMem_spec s.draws (roundsOf rounds).toNat (chachaInit key nonce counter) dst.a src.a src.n s.BUF
    (hinplace.noSmear le_rfl)).congr fun p _ => stateStream_init key nonce counter _ p

/-- Settles O13: the closed form of the memory, and an effect that sets no other register. -/
theorem ccXorWritesKeystreamXor : Obligations.CcXorWritesKeystreamXor := by
  intro rounds counter key nonce dst src s
  refine .of_runAt fun P h => ⟨ccXor_xoredInto h counter key nonce s, ?_⟩
  rw [runAt, ccXor_of_accepts h]
  exact ⟨rfl, ⟨rfl, rfl, rfl, rfl, rfl⟩, ⟨rfl, rfl, rfl, rfl⟩, rfl, rfl⟩

/-- Settles O15: the second XOR is with the same keystream, over what the first wrote. -/
theorem ccXorTwiceRestores : Obligations.CcXorTwiceRestores := by
  intro P rounds counter key nonce dst src back out s hfirst hsecond hout hlen t j hj
  have h2 := ccXor_xoredInto hsecond counter key nonce (ccXor P rounds counter key nonce dst src s)
  rw [hout, hlen] at h2
  exact (ccXor_xoredInto hfirst counter key nonce s).restore h2 hj

/-- The keystream from a counter `k` further on is that from `64 k` bytes further on (R123). -/
theorem kstream_add_blocks (key : Vector Word 8) (nonce : Vector Word 3) (c : Word) (rounds k p : Nat) :
    kstream key nonce (c + BitVec.ofNat 32 k) rounds p = kstream key nonce c rounds (64 * k + p) := by
  rw [← stateStream_init, ← stateStream_init, ← bumpCounter_iterate_init, stateStream_iterate]

/-- Settles O16: both parts are accepted, and the second keystream goes on where the first stopped. -/
theorem ccXorSplitsAtBlocks : Obligations.CcXorSplitsAtBlocks := by
  intro P rounds counter key nonce dst src dst1 src1 dst2 src2 s k haccepts hwritten hk hd1 hdn1 hs1 hsn1 hd2 hdn2 hs2 hsn2
  have hle1 : 0 + src1.n ≤ src.n := by rwa [hsn1, Nat.zero_add]
  have hle2 : 64 * k + src2.n ≤ src.n := by rw [hsn2, Nat.add_sub_cancel' hk]
  have ⟨hcap, hrounds, hin, hinplace⟩ := haccepts
  have hpart1 : CcXorAccepts P rounds dst1 src1 := by
    obtain ⟨h1, h2, h3⟩ := accepts_part hcap hin hinplace hd1 hs1 (hdn1.trans hsn1.symm) hle1
    exact ⟨h1, hrounds, h2, h3⟩
  have hpart2 : CcXorAccepts P rounds dst2 src2 := by
    obtain ⟨h1, h2, h3⟩ := accepts_part hcap hin hinplace hd2 hs2 (hdn2.trans hsn2.symm) hle2
    exact ⟨h1, hrounds, h2, h3⟩
  intro one two
  have hone := ccXor_xoredInto haccepts counter key nonce s
  have hfirst := ccXor_xoredInto hpart1 counter key nonce s
  have hsecond := ccXor_xoredInto hpart2 (counter + BitVec.ofNat 32 k) key nonce
    (ccXor P rounds counter key nonce dst1 src1 s)
  rw [hd1, hs1, hsn1] at hfirst
  rw [hd2, hs2, hsn2] at hsecond
  refine ⟨?_, hone.split_get?_eq hfirst hsecond hk (hinplace.noSmear le_rfl) hwritten (fun _ _ => rfl)
    fun p _ => kstream_add_blocks key nonce counter _ k p⟩
  simp only [two, runAt, ccXor_of_accepts hpart2, lastStatus_respond]

end Sys2Proof.Machine
end

section
/-! SUPPORT. `CC_STREAM` (spec/41_chacha_xor.md R133 to R135): what it leaves alone from any state, and where it stands in
its keystream. -/

namespace Sys2Proof.Machine

theorem streamLeftover_OFF (dst src n : Nat) (s : State) :
    (streamLeftover dst src n s).OFF.val = (s.OFF.val + leftoverLen n s) % 64 := by
  have hoff := s.OFF.isLt
  simp only [streamLeftover, leftoverLen]
  split
  · rfl
  · omega

theorem streamFinal_OFF (dst src r : Nat) (s : State) :
    (streamFinal dst src r s).OFF.val = if 0 < r then r % 64 else s.OFF.val := by
  simp only [streamFinal]
  split <;> rfl

/-- Step 1 processes all bytes, or uses the leftover block up. -/
theorem leftoverLen_cases (n : Nat) (s : State) : leftoverLen n s = n ∨ (s.OFF.val + leftoverLen n s) % 64 = 0 := by
  have hoff := s.OFF.isLt
  simp only [leftoverLen]
  split <;> omega

/-- The offset moves on by the bytes processed, around the block (R24, R133). -/
theorem streamXor_OFF (dst src n : Nat) (s : State) :
    (streamXor dst src n s).OFF.val = (s.OFF.val + n) % 64 := by
  have hle := leftoverLen_le n s
  simp only [streamXor, streamFinal_OFF, streamBlocks, streamLeftover_OFF]
  rcases leftoverLen_cases n s with hall | hused
  · simp [hall]
  · generalize leftoverLen n s = i at *
    rw [hused]
    split <;> omega

/-- Without a remainder no new leftover block is generated (R23, R133). -/
theorem streamXor_KB {dst src n : Nat} {s : State} (h : (n - leftoverLen n s) % 64 = 0) :
    (streamXor dst src n s).KB = s.KB := by
  have hle := leftoverLen_le n s
  have hnone : ¬0 < n - (leftoverLen n s + 64 * ((n - leftoverLen n s) / 64)) := by omega
  simp only [streamXor, streamFinal, if_neg hnone, streamBlocks, streamLeftover]
  split <;> rfl

/-- Settles O19: the extent, the counter, the offset and the leftover block of the loop, and no other field. -/
theorem ccStreamFrame : Obligations.CcStreamFrame := by
  intro dst src s
  refine .of_runAt fun P h => ?_
  obtain ⟨x, kb, off, m, hframe⟩ := streamXor_frame dst.a src.a src.n s
  have hOFF := streamXor_OFF dst.a src.a src.n s
  have hKB := streamXor_KB (dst := dst.a) (src := src.a) (n := src.n) (s := s)
  have hBUF := (WritesExtent.streamXor dst.a src.a src.n s).outside
  have hS := streamXor_S dst.a src.a src.n s
  rw [bumpCounter_iterate, streamBlockCount] at hS
  rw [runAt, ccStream_of_accepts h]
  rw [hframe] at hOFF hKB hBUF hS ⊢
  exact ⟨hBUF, hS, hOFF, hKB, rfl, rfl, ⟨rfl, rfl, rfl, rfl⟩, rfl, rfl⟩

/-- Settles O18: what the loop does at a position of a keystream, and the response. -/
theorem ccStreamAdvancesPosition : Obligations.CcStreamAdvancesPosition := by
  intro key nonce rounds p dst src s
  refine .of_runAt fun P ⟨hat, haccepts⟩ => ?_
  obtain ⟨hnext, hxor⟩ := ccStream_spec hat haccepts
  refine ⟨hxor, hnext, ?_⟩
  rw [runAt, ccStream_of_accepts haccepts, Answers, respond_respPort, (streamXor_ports dst.a src.a src.n s).1]

/-- A response of `CC_STREAM` with `ST_OK` is one whose checks passed. -/
theorem lastStatus_ccStream (P : Params) (dst src : Region) (s : State) :
    lastStatus (ccStream P dst src s) = some .ok ↔ CcStreamAccepts P dst src s := by
  constructor
  · intro hok
    rcases ccStream_verdict P dst src s with ⟨haccepts, _⟩ | ⟨st, hne, h⟩
    · exact haccepts
    · rw [h, State.raise, lastStatus_respond] at hok
      exact absurd (Option.some.inj hok) hne
  · intro haccepts
    rw [ccStream_of_accepts haccepts, lastStatus_respond]

/-- Settles O22: each command is accepted where the one is, and goes on in the keystream where the one before stopped. -/
theorem streamChunkIndependence : Obligations.StreamChunkIndependence := by
  intro P key nonce rounds p k dst src dst1 src1 dst2 src2 s hat haccepts hwritten hk hd1 hdn1 hs1 hsn1 hd2 hdn2 hs2 hsn2
  have hle1 : 0 + src1.n ≤ src.n := by rwa [hsn1, Nat.zero_add]
  have hle2 : k + src2.n ≤ src.n := by rw [hsn2, Nat.add_sub_cancel' hk]
  have hend : p + src1.n + src2.n = p + src.n := by rw [hsn1, hsn2, Nat.add_assoc, Nat.add_sub_cancel' hk]
  have ⟨hvalid, hcap, hin, hinplace⟩ := haccepts
  have hpart1 : CcStreamAccepts P dst1 src1 s := ⟨hvalid, accepts_part hcap hin hinplace hd1 hs1
    (hdn1.trans hsn1.symm) hle1⟩
  obtain ⟨hat1, hxor1⟩ := ccStream_spec hat hpart1
  have ⟨hvalid1, _⟩ := hat1
  have hpart2 : CcStreamAccepts P dst2 src2 (ccStream P dst1 src1 s) := ⟨hvalid1,
    accepts_part hcap hin hinplace hd2 hs2 (hdn2.trans hsn2.symm) hle2⟩
  obtain ⟨hat2, hxor2⟩ := ccStream_spec hat1 hpart2
  obtain ⟨hatOne, hxorOne⟩ := ccStream_spec hat haccepts
  rw [hend] at hat2
  rw [hd1, hs1, hsn1] at hxor1
  rw [hd2, hs2, hsn2, hsn1] at hxor2
  obtain ⟨_, _, hoffOne, hSOne, hKBOne⟩ := hatOne
  obtain ⟨_, _, hoffTwo, hSTwo, hKBTwo⟩ := hat2
  have hoff := hoffTwo.trans hoffOne.symm
  refine ⟨(lastStatus_ccStream P dst2 src2 _).2 hpart2,
    hxorOne.split_get?_eq hxor1 hxor2 hk (hinplace.noSmear le_rfl) hwritten (fun _ _ => rfl) fun j _ => ?_,
    hSTwo.trans hSOne.symm, Fin.ext hoff, fun hne => ?_⟩
  · rw [Nat.add_assoc]
  · exact (hKBTwo (hoff.trans_ne hne)).trans (hKBOne hne).symm

/-- Settles O23: from position 0 the context stands at position 64 and then at position 65. -/
theorem counterBlockBoundary : Obligations.CounterBlockBoundary := by
  intro P rounds key nonce dst src dst' src' s hrounds hn hn' s1 s2 haccepts haccepts' s3
  obtain ⟨hat2, _⟩ := ccStream_spec (ccNew_atPosition hrounds key nonce s) haccepts
  obtain ⟨hat3, _⟩ := ccStream_spec hat2 haccepts'
  rw [hn] at hat2
  rw [hn, hn'] at hat3
  obtain ⟨_, _, hoff2, hS2, _⟩ := hat2
  obtain ⟨_, _, hoff3, hS3, _⟩ := hat3
  refine ⟨?_, Fin.ext hoff2, ?_, Fin.ext hoff3⟩
  · exact congrArg (·[12]) hS2
  · exact congrArg (·[12]) hS3

end Sys2Proof.Machine
end

section
/-! SUPPORT. The stream and the one-shot command (spec/41_chacha_xor.md R134): over any moves but a reset and a new
context, what goes through `CC_STREAM` is XOR-ed with one keystream from its start. -/

namespace Sys2Proof.Machine

/-- The `n` keystream bytes from position `p`. -/
def keystreamFrom (key : Vector Word 8) (nonce : Vector Word 3) (rounds p n : Nat) : List Byte :=
  (List.range n).map fun j => kstream key nonce 0 rounds (p + j)

@[simp] theorem length_keystreamFrom (key : Vector Word 8) (nonce : Vector Word 3) (rounds p n : Nat) :
    (keystreamFrom key nonce rounds p n).length = n := by
  simp [keystreamFrom]

theorem keystreamFrom_add (key : Vector Word 8) (nonce : Vector Word 3) (rounds p n m : Nat) :
    keystreamFrom key nonce rounds p (n + m) =
      keystreamFrom key nonce rounds p n ++ keystreamFrom key nonce rounds (p + n) m := by
  simp [keystreamFrom, List.range_add, Nat.add_assoc, Function.comp_def]

/-- A keystream goes on where it stopped. -/
theorem xorBytes_keystreamFrom_append (key : Vector Word 8) (nonce : Vector Word 3) (rounds p : Nat) (a b : List Byte) :
    xorBytes (a ++ b) (keystreamFrom key nonce rounds p (a ++ b).length) =
      xorBytes a (keystreamFrom key nonce rounds p a.length) ++
        xorBytes b (keystreamFrom key nonce rounds (p + a.length) b.length) := by
  rw [List.length_append, keystreamFrom_add]
  exact List.zipWith_append (by simp)

/-- A move whose streamed bytes `io` are XOR-ed with the keystream from position `p`, after which the context stands
behind them. -/
def StreamsFrom (key : Vector Word 8) (nonce : Vector Word 3) (rounds p : Nat) (io : List Byte × List Byte) (t : State) :
    Prop :=
  io.2 = xorBytes io.1 (keystreamFrom key nonce rounds p io.1.length) ∧ AtPosition key nonce rounds (p + io.1.length) t

/-- A move that streams nothing and leaves the stream context alone. -/
theorem StreamsFrom.quiet {key : Vector Word 8} {nonce : Vector Word 3} {rounds p : Nat} {s t : State}
    (hat : AtPosition key nonce rounds p s) (hsame : SameStream s t) : StreamsFrom key nonce rounds p ([], []) t :=
  ⟨rfl, hat.of_sameStream hsame⟩

theorem raise_sameStream (s : State) (st : Status) : SameStream s (s.raise st) := (raise_sameCore s st).1

/-- Only `CC_STREAM` streams. -/
theorem streamedBy_of_command {ws : Descriptor} {i : Instr} (hdecode : decode ws = .command i)
    (hstream : ∀ dst src, i ≠ .ccStream dst src) (s t : State) : streamedBy (.issue ws) s t = ([], []) := by
  cases i with
  | ccStream dst src => exact absurd rfl (hstream dst src)
  | ccXor | ccNew | eaxNew | eaxNonceSize | eaxOverhead | eaxSeal | eaxOpen => simp only [streamedBy, hdecode]

theorem streamedBy_of_ccStream {ws : Descriptor} {dst src : Region} (hdecode : decode ws = .command (.ccStream dst src))
    (s t : State) :
    streamedBy (.issue ws) s t = if lastStatus t = some .ok
      then (s.BUF.readBytes s.draws src.a src.n, t.BUF.readBytes t.draws dst.a src.n) else ([], []) := by
  simp only [streamedBy, hdecode]

/-- A `CC_STREAM` streams from where the context stands, or fails and streams nothing. -/
theorem ccStream_streamsFrom {P : Params} {ws : Descriptor} {dst src : Region}
    (hdecode : decode ws = .command (.ccStream dst src)) {key : Vector Word 8} {nonce : Vector Word 3} {rounds p : Nat}
    {s : State} (hat : AtPosition key nonce rounds p s) :
    StreamsFrom key nonce rounds p (streamedBy (.issue ws) s (ccStream P dst src s)) (ccStream P dst src s) := by
  rw [streamedBy_of_ccStream hdecode]
  by_cases haccepts : CcStreamAccepts P dst src s
  · rw [if_pos ((lastStatus_ccStream P dst src s).2 haccepts)]
    obtain ⟨hnext, hxor⟩ := ccStream_spec hat haccepts
    exact ⟨by simpa [keystreamFrom] using hxor.read _, by simpa using hnext⟩
  · rw [if_neg (mt (lastStatus_ccStream P dst src s).1 haccepts)]
    rcases ccStream_verdict P dst src s with ⟨h, _⟩ | ⟨st, _, h⟩
    · exact absurd h haccepts
    · rw [h]
      exact .quiet hat (raise_sameStream s st)

/-- One move that is no reset and constructs no new stream context. -/
theorem moveAt_streamsFrom (F : Nat → Params) {m : HostMove} (hreset : m ≠ .reset)
    (hnew : ∀ ws r k v, m = .issue ws → decode ws = .command (.ccNew r k v) → ¬ValidRounds r)
    {key : Vector Word 8} {nonce : Vector Word 3} {rounds p : Nat} {s : State} (hat : AtPosition key nonce rounds p s) :
    StreamsFrom key nonce rounds p (streamedBy m s (moveAt F m s)) (moveAt F m s) := by
  cases m with
  | issue ws =>
    cases hdecode : decode ws with
    | illegal why =>
      rw [moveAt_issue_illegal hdecode, streamedBy, hdecode]
      exact .quiet hat (raise_sameStream s _)
    | command i =>
      rw [moveAt_issue_command hdecode]
      cases i with
      | ccStream dst src => exact ccStream_streamsFrom hdecode hat
      | ccNew r k v =>
        rw [streamedBy_of_command hdecode nofun, runAt, ccNew_of_not_validRounds (hnew ws r k v rfl hdecode)]
        exact .quiet hat (raise_sameStream s _)
      | ccXor | eaxNew | eaxNonceSize | eaxOverhead | eaxSeal | eaxOpen =>
        rw [streamedBy_of_command hdecode nofun]
        exact .quiet hat (runAt_sameStream _ s nofun nofun)
  | write a bytes =>
    obtain ⟨_, hwrite⟩ := moveAt_write F a bytes s
    rw [hwrite]
    exact .quiet hat ⟨rfl, rfl, rfl, rfl, rfl⟩
  | reset => exact absurd rfl hreset
  | rekey _ => exact .quiet hat ⟨rfl, rfl, rfl, rfl, rfl⟩

/-- All moves of a run, one after the other. -/
theorem streamTrace_eq_xorBytes (F : Nat → Params) {key : Vector Word 8} {nonce : Vector Word 3} {rounds : Nat}
    (moves : List HostMove) : ∀ {p : Nat} {s : State}, AtPosition key nonce rounds p s → .reset ∉ moves →
    (∀ ws r k v, .issue ws ∈ moves → decode ws = .command (.ccNew r k v) → ¬ValidRounds r) →
    (streamTrace F moves s).2.1 =
      xorBytes (streamTrace F moves s).1 (keystreamFrom key nonce rounds p (streamTrace F moves s).1.length) := by
  induction moves with
  | nil => intros; rfl
  | cons m moves ih =>
    intro p s hat hreset hnew
    obtain ⟨hout, hnext⟩ := moveAt_streamsFrom F (fun h => hreset (h ▸ List.mem_cons_self))
      (fun ws r k v h => hnew ws r k v (h ▸ List.mem_cons_self)) hat
    have hrest := ih hnext (fun h => hreset (List.mem_cons_of_mem _ h))
      fun ws r k v h => hnew ws r k v (List.mem_cons_of_mem _ h)
    rw [streamTrace, xorBytes_keystreamFrom_append, ← hout, ← hrest]

/-- Settles O21: the run starts at position 0, and one `CC_XOR` with counter 0 uses the same keystream bytes. -/
theorem streamEqualsOneShot : Obligations.StreamEqualsOneShot := by
  intro F rounds key nonce s moves hrounds hreset hnew trace
  have hat : AtPosition key nonce rounds.toInt.toNat 0 (runAt (F s.attached) (.ccNew rounds key nonce) s) :=
    ccNew_atPosition hrounds key nonce s
  have htrace : trace.2.1 = xorBytes trace.1 ((List.range trace.1.length).map (kstream key nonce 0 rounds.toInt.toNat)) := by
    simpa [keystreamFrom] using streamTrace_eq_xorBytes F moves hat hreset hnew
  refine ⟨htrace, ?_⟩
  intro dst src u haccepts hsource v
  have hlen : src.n = trace.1.length := by rw [← hsource, Memory.readBytes_length]
  have hread := (ccXor_xoredInto haccepts 0 key nonce u).read v.draws
  rw [hsource] at hread
  rw [htrace, ← hlen]
  exact hread

end Sys2Proof.Machine
end

section
/-! SUPPORT. What no command reads (spec/10_state.md R23, R46): two runs from states that differ in such a register end in
states that differ in that register at most. -/

namespace Sys2Proof.Machine

/-- Two commands with the same checks are related when their responses to a failed check and their effects are. -/
theorem guarded_related {R : State → State → Prop} {s s' effect effect' : State} {failure : Option Status}
    (hraise : ∀ st, R (s.raise st) (s'.raise st)) (heffect : R effect effect') :
    R (s.guarded failure effect) (s'.guarded failure effect') := by
  cases failure with
  | none => exact heffect
  | some st => exact hraise st

/-- The same but for `KB`. -/
def SameButKB (t t' : State) : Prop := t' = { t with KB := t'.KB }

/-- The same but for `CTR` and `KS`. -/
def SameButCtr (t t' : State) : Prop := t' = { t with CTR := t'.CTR, KS := t'.KS }

/-- The same but for the stream context, its valid bit included among what is the same. -/
def SameButStream (t t' : State) : Prop := t' = { t with S := t'.S, KB := t'.KB, OFF := t'.OFF, ROUNDS := t'.ROUNDS }

/-- The same but for `TAGSIZE`. -/
def SameButTagSize (t t' : State) : Prop := t' = { t with TAGSIZE := t'.TAGSIZE }

/-! The loops -/

/-- The loop of `CC_STREAM` does not read the EAX context. -/
theorem streamXor_withCtr (dst src n : Nat) (s : State) (ctr ks : List Byte) :
    streamXor dst src n { s with CTR := ctr, KS := ks } = { streamXor dst src n s with CTR := ctr, KS := ks } := by
  simp only [streamXor, streamFinal, streamBlocks, streamLeftover, leftoverLen]
  split <;> split <;> rfl

theorem streamXor_withTagSize (dst src n : Nat) (s : State) (tagSize : Nat) :
    streamXor dst src n { s with TAGSIZE := tagSize } = { streamXor dst src n s with TAGSIZE := tagSize } := by
  simp only [streamXor, streamFinal, streamBlocks, streamLeftover, leftoverLen]
  split <;> split <;> rfl

/-- The counter-mode loop writes `ks` without reading it. -/
theorem ctrChunks_withKs (P : Params) (d c dst src n : Nat) (r : CtrRun) (ks : List Byte) :
    ∃ k, ctrChunks P d c dst src n { r with ks := ks } = { ctrChunks P d c dst src n r with ks := k } := by
  cases c <;> exact ⟨_, rfl⟩

/-- Counter mode takes its seed for `CTR`, and does not read `KS`. -/
theorem seedAndXor_withCtr (P : Params) (seed : List Byte) (dst src n : Nat) (s : State) (ctr ks : List Byte) :
    ∃ k, seedAndXor P seed dst src n { s with CTR := ctr, KS := ks } = { seedAndXor P seed dst src n s with KS := k } := by
  obtain ⟨k, hk⟩ := ctrChunks_withKs P s.draws (chunkCount P n) dst src n ⟨seed, s.KS, s.BUF, s.portLog⟩ ks
  refine ⟨k, ?_⟩
  simp only [seedAndXor, ctrXor, hk]

/-! Registers that hold no value -/

/-- `EAX_SEAL` past its checks reads neither register before writing it. -/
theorem sealEffect_withCtr (P : Params) (dst nonce text ad : Region) (s : State) (ctr ks : List Byte) :
    ∃ k, sealEffect P dst nonce text ad { s with CTR := ctr, KS := ks } =
      { sealEffect P dst nonce text ad s with KS := k } := by
  obtain ⟨k, hk⟩ := seedAndXor_withCtr P (authNonce P nonce s) dst.a text.a text.n s ctr ks
  have hnonce : authNonce P nonce { s with CTR := ctr, KS := ks } = authNonce P nonce s := rfl
  refine ⟨k, ?_⟩
  simp only [sealEffect_eq, sealTag, sealedText, hnonce, hk]
  rfl

/-- `EAX_OPEN` past its checks seeds `CTR` on a match, and touches neither register on a mismatch. -/
theorem openEffect_withCtr (P : Params) (dst nonce text ad : Region) (s : State) (ctr ks : List Byte) :
    SameButCtr (openEffect P dst nonce text ad s) (openEffect P dst nonce text ad { s with CTR := ctr, KS := ks }) := by
  by_cases htag : expectedTag P nonce text ad s = receivedTag text s
  · obtain ⟨k, hk⟩ := seedAndXor_withCtr P (authNonce P nonce s) dst.a text.a (text.n - s.TAGSIZE) s ctr ks
    have hnonce : authNonce P nonce { s with CTR := ctr, KS := ks } = authNonce P nonce s := rfl
    rw [openEffect_of_match htag, openEffect_of_match (by exact htag)]
    simp only [SameButCtr, hnonce, hk]
    rfl
  · rw [openEffect_of_mismatch htag, openEffect_of_mismatch (by exact htag)]
    rfl

/-- No command reads `CTR` or `KS` before writing them. -/
theorem runAt_withCtr (P : Params) (i : Instr) (s : State) (ctr ks : List Byte) :
    SameButCtr (runAt P i s) (runAt P i { s with CTR := ctr, KS := ks }) := by
  cases i with
  | ccXor | ccNew | eaxNew | eaxNonceSize | eaxOverhead => exact guarded_related (fun _ => rfl) rfl
  | ccStream dst src =>
    refine guarded_related (fun _ => rfl) ?_
    rw [SameButCtr, streamXor_withCtr]
    rfl
  | eaxSeal dst nonce text ad =>
    refine guarded_related (fun _ => rfl) ?_
    obtain ⟨k, hk⟩ := sealEffect_withCtr P dst nonce text ad s ctr ks
    rw [SameButCtr, hk]
  | eaxOpen dst nonce text ad =>
    exact guarded_related (fun _ => rfl) (openEffect_withCtr P dst nonce text ad s ctr ks)

/-- Without a stream context no command reads its registers. -/
theorem runAt_withStream (P : Params) (i : Instr) {s : State} (h : s.CC_VALID = false) (x : ChaState) (kb : Block)
    (off : Fin 64) (rounds : Nat) :
    SameButStream (runAt P i s) (runAt P i { s with S := x, KB := kb, OFF := off, ROUNDS := rounds }) := by
  cases i with
  | ccXor | ccNew | eaxNew | eaxNonceSize | eaxOverhead | eaxSeal => exact guarded_related (fun _ => rfl) rfl
  | ccStream dst src =>
    rw [runAt, runAt, ccStream_of_not_valid P dst src h, ccStream_of_not_valid P dst src (by exact h)]
    rfl
  | eaxOpen dst nonce text ad =>
    refine guarded_related (fun _ => rfl) ?_
    by_cases htag : expectedTag P nonce text ad s = receivedTag text s
    · rw [openEffect_of_match htag, openEffect_of_match (by exact htag)]
      rfl
    · rw [openEffect_of_mismatch htag, openEffect_of_mismatch (by exact htag)]
      rfl

/-- Without an EAX context no command reads `TAGSIZE`. -/
theorem runAt_withTagSize (P : Params) (i : Instr) {s : State} (h : s.EAX_VALID = false) (tagSize : Nat) :
    SameButTagSize (runAt P i s) (runAt P i { s with TAGSIZE := tagSize }) := by
  cases i with
  | ccXor | ccNew | eaxNew | eaxNonceSize => exact guarded_related (fun _ => rfl) rfl
  | ccStream dst src =>
    refine guarded_related (fun _ => rfl) ?_
    rw [SameButTagSize, streamXor_withTagSize]
    rfl
  | eaxOverhead =>
    rw [runAt, runAt, eaxOverhead_of_not_valid h, eaxOverhead_of_not_valid (by exact h)]
    rfl
  | eaxSeal dst nonce text ad =>
    rw [runAt, runAt, eaxSeal_of_not_valid P dst nonce text ad h, eaxSeal_of_not_valid P dst nonce text ad (by exact h)]
    rfl
  | eaxOpen dst nonce text ad =>
    rw [runAt, runAt, eaxOpen_of_not_valid P dst nonce text ad h, eaxOpen_of_not_valid P dst nonce text ad (by exact h)]
    rfl

/-- Settles O45: register by register, over every command. -/
theorem emptyRegistersUnread : Obligations.EmptyRegistersUnread := fun P i s =>
  ⟨runAt_withCtr P i s, fun h => runAt_withStream P i h, fun h => runAt_withTagSize P i h⟩

/-! The consumed bytes of `KB` -/

/-- `kb` holds the leftover bytes that the context has still to use (R23); nothing is said of the consumed ones. -/
def HoldsLeftover (kb : Block) (s : State) : Prop :=
  s.OFF.val ≠ 0 → ∀ j (h : j < 64), s.OFF.val ≤ j → kb[j] = s.KB[j]

/-- The bytes from the offset on are the same. -/
theorem HoldsLeftover.drop_eq {kb : Block} {s : State} (h : HoldsLeftover kb s) (hoff : s.OFF.val ≠ 0) :
    kb.toList.drop s.OFF.val = s.KB.toList.drop s.OFF.val := by
  refine List.ext_getElem (by simp) fun j hj _ => ?_
  have hlt : s.OFF.val + j < 64 := by simp at hj; omega
  simpa using h hoff (s.OFF.val + j) hlt (by omega)

/-- Step 1 reads the bytes from the offset on. -/
theorem streamLeftover_withKB {kb : Block} {s : State} (h : HoldsLeftover kb s) (dst src n : Nat) :
    streamLeftover dst src n { s with KB := kb } = { streamLeftover dst src n s with KB := kb } := by
  simp only [streamLeftover]
  split
  · rw [h.drop_eq ‹_›]
  · rfl

/-- Step 2 neither reads nor writes `KB`. -/
theorem streamBlocks_withKB (dst src n : Nat) (s : State) (kb : Block) :
    streamBlocks dst src n { s with KB := kb } = { streamBlocks dst src n s with KB := kb } := rfl

/-- Step 3 writes `KB` without reading it. -/
theorem streamFinal_withKB (dst src r : Nat) (s : State) (kb : Block) :
    streamFinal dst src r { s with KB := kb } =
      { streamFinal dst src r s with KB := if 0 < r then (streamFinal dst src r s).KB else kb } := by
  simp only [streamFinal]
  split <;> rfl

/-- With no new block generated, bytes left over were left over before, and the offset has moved on (R24). -/
theorem OFF_le_of_no_block {dst src n : Nat} {s : State} (hblock : (n - leftoverLen n s) % 64 = 0)
    (hoff : (streamXor dst src n s).OFF.val ≠ 0) : s.OFF.val ≠ 0 ∧ s.OFF.val ≤ (streamXor dst src n s).OFF.val := by
  have hlt := s.OFF.isLt
  rw [streamXor_OFF] at hoff ⊢
  simp only [leftoverLen] at hblock
  split at hblock <;> omega

/-- The loop of `CC_STREAM` does not depend on the consumed bytes, and they stay consumed. -/
theorem streamXor_withKB {kb : Block} {s : State} (h : HoldsLeftover kb s) (dst src n : Nat) :
    ∃ kb', streamXor dst src n { s with KB := kb } = { streamXor dst src n s with KB := kb' } ∧
      HoldsLeftover kb' (streamXor dst src n s) := by
  have hloop : ∃ r, (r = 0 → (n - leftoverLen n s) % 64 = 0) ∧ streamXor dst src n { s with KB := kb } =
      { streamXor dst src n s with KB := if 0 < r then (streamXor dst src n s).KB else kb } := by
    have hle := leftoverLen_le n s
    refine ⟨n - (leftoverLen n s + 64 * ((n - leftoverLen n s) / 64)), by omega, ?_⟩
    have hlen : leftoverLen n { s with KB := kb } = leftoverLen n s := rfl
    simp only [streamXor, hlen, streamLeftover_withKB h, streamBlocks_withKB, streamFinal_withKB]
  obtain ⟨r, hr, hloop⟩ := hloop
  refine ⟨_, hloop, fun hoff j hj hle => ?_⟩
  split
  · rfl
  · have hblock := hr (by omega)
    obtain ⟨hbefore, hmoved⟩ := OFF_le_of_no_block hblock hoff
    rw [streamXor_KB hblock]
    exact h hbefore j hj (hmoved.trans hle)

/-- What two runs from states that differ in consumed bytes of `KB` end in. -/
def SameButConsumed (t t' : State) : Prop := SameButKB t t' ∧ HoldsLeftover t'.KB t

/-- No command's result depends on the consumed bytes of `KB`. -/
theorem runAt_withKB (P : Params) (i : Instr) {s : State} {kb : Block} (h : HoldsLeftover kb s) :
    SameButConsumed (runAt P i s) (runAt P i { s with KB := kb }) := by
  have hraise (st : Status) : SameButConsumed (s.raise st) ({ s with KB := kb }.raise st) := ⟨rfl, h⟩
  cases i with
  | ccNew => exact guarded_related hraise ⟨rfl, fun hoff => absurd rfl hoff⟩
  | ccXor | eaxNew | eaxNonceSize | eaxOverhead | eaxSeal => exact guarded_related hraise ⟨rfl, h⟩
  | ccStream dst src =>
    refine guarded_related hraise ?_
    obtain ⟨kb', hloop, hholds⟩ := streamXor_withKB h dst.a src.a src.n
    rw [hloop]
    exact ⟨rfl, hholds⟩
  | eaxOpen dst nonce text ad =>
    refine guarded_related hraise ?_
    by_cases htag : expectedTag P nonce text ad s = receivedTag text s
    · rw [openEffect_of_match htag, openEffect_of_match (by exact htag)]
      exact ⟨rfl, h⟩
    · rw [openEffect_of_mismatch htag, openEffect_of_mismatch (by exact htag)]
      exact ⟨rfl, h⟩

/-- Settles O24: over every command, the results and what stays consumed. -/
theorem deadLeftoverUnobservable : Obligations.DeadLeftoverUnobservable := fun P i _ _ h => runAt_withKB P i h

end Sys2Proof.Machine
end

section
/-! SUPPORT. `EAX_SEAL` and `EAX_OPEN` with their checks passed (spec/43_eax.md R153, R164, R165, R176, R177): counter mode,
the tag and the traffic on the function ports. -/

namespace Sys2Proof.Machine

/-- Settles O27: both runs use the keystream of the one seed. -/
theorem ctrXorTwiceRestores : Obligations.CtrXorTwiceRestores := by
  intro P seed dst src back n s hfirst hsecond t j hj
  obtain ⟨⟨hxor, _⟩, _⟩ := seedAndXor_spec P seed dst src n s hfirst
  obtain ⟨⟨hback, _⟩, _⟩ := seedAndXor_spec P seed back dst n (seedAndXor P seed dst src n s) hsecond
  exact hxor.restore hback hj

/-! Sealing -/

/-- What was written reads the same whatever the draw. -/
theorem XoredInto.read_draw {m m' : Memory} {d dst src n : Nat} {ks : Nat → Byte} (h : XoredInto m m' d dst src n ks)
    (d1 d2 : Nat) : m'.readBytes d1 dst n = m'.readBytes d2 dst n := by
  rw [h.read d1, h.read d2]

/-- Counter mode runs over the plaintext (R164). -/
theorem SealAccepts.ctrRan {P : Params} {dst nonce text ad : Region} {s : State} (h : SealAccepts P dst nonce text ad s) :
    CtrRan P (authNonce P nonce s) dst.a text.a text.n s (eaxSeal P dst nonce text ad s) := by
  have ⟨_, _, _, _, _, _, hinplace⟩ := h
  rw [eaxSeal_of_accepts h]
  exact (seedAndXor_spec P (authNonce P nonce s) dst.a text.a text.n s (hinplace.noSmear le_rfl)).1

/-- The ciphertext is what stands in the extent afterwards. -/
theorem SealAccepts.readBytes_eq {P : Params} {dst nonce text ad : Region} {s : State}
    (h : SealAccepts P dst nonce text ad s) (d : Nat) :
    (eaxSeal P dst nonce text ad s).BUF.readBytes d dst.a text.n = sealedText P dst nonce text s := by
  obtain ⟨hxor, _⟩ := h.ctrRan
  rw [hxor.read_draw d s.draws, eaxSeal_of_accepts h]
  rfl

/-- The ciphertext is the plaintext XOR-ed with the keystream from `authNonce`. -/
theorem SealAccepts.sealedText_eq {P : Params} {dst nonce text ad : Region} {s : State}
    (h : SealAccepts P dst nonce text ad s) :
    sealedText P dst nonce text s =
      xorBytes (s.operand text) ((List.range text.n).map (ctrStream P (authNonce P nonce s))) := by
  obtain ⟨hxor, _⟩ := h.ctrRan
  rw [← h.readBytes_eq s.draws, hxor.read]
  rfl

/-- The response of a sealing is the ciphertext's tag. -/
theorem SealAccepts.answers {P : Params} {dst nonce text ad : Region} {s : State} (h : SealAccepts P dst nonce text ad s) :
    Answers s (eaxSeal P dst nonce text ad s) .ok text.len (sealTag P dst nonce text ad s) := by
  rw [eaxSeal_of_accepts h]
  rfl

@[simp] theorem sealedText_length (P : Params) (dst nonce text : Region) (s : State) :
    (sealedText P dst nonce text s).length = text.n := by
  simp [sealedText]

/-- Settles O32: the run of counter mode, and the tag over what it wrote. -/
theorem eaxSealEncryptsAndTags : Obligations.EaxSealEncryptsAndTags := by
  intro dst nonce text ad s
  refine .of_runAt fun P h => ⟨h.ctrRan, ?_⟩
  rw [runAt, h.readBytes_eq]
  exact h.answers

/-- A tag no longer than the MAC sums has the tag size. -/
theorem eaxTag_omac_length (P : Params) {tagSize : Nat} (h : tagSize ≤ P.B) (t t' t'' : Byte) (x y z : List Byte) :
    (eaxTag tagSize (omac P t x) (omac P t' y) (omac P t'' z)).length = tagSize := by
  simp [eaxTag, xorBytes, h]

/-- Settles O33: counter mode over no byte, and a tag cut to `TAGSIZE`. -/
theorem eaxSealOfEmptyText : Obligations.EaxSealOfEmptyText := by
  intro dst nonce text ad s
  refine .of_runAt fun P ⟨h, hempty, htag⟩ => ?_
  have hlen : text.len = 0 := BitVec.eq_of_toNat_eq hempty
  obtain ⟨hxor, hctr, hks, _⟩ := h.ctrRan
  have hanswers := h.answers
  rw [hempty] at hxor hctr hks
  rw [chunkCount_zero] at hctr
  rw [hlen] at hanswers
  exact ⟨hxor.get?_eq (XoredInto.zero _ _ _ _ _), hctr, hks, _, eaxTag_omac_length P htag _ _ _ _ _ _, hanswers⟩

/-! Opening -/

/-- Counter mode runs over the body when the tag matches (R165). -/
theorem OpenAccepts.ctrRan {P : Params} {dst nonce text ad : Region} {s : State} (h : OpenAccepts P dst nonce text ad s)
    (htag : expectedTag P nonce text ad s = receivedTag text s) :
    CtrRan P (authNonce P nonce s) dst.a text.a (text.n - s.TAGSIZE) s (eaxOpen P dst nonce text ad s) := by
  have ⟨_, _, _, _, _, _, _, hinplace⟩ := h
  rw [eaxOpen_of_accepts h, openEffect_of_match htag]
  exact (seedAndXor_spec P (authNonce P nonce s) dst.a text.a _ s (hinplace.noSmear (Nat.sub_le _ _))).1

/-- The response to a message whose tag matches. -/
theorem OpenAccepts.answers {P : Params} {dst nonce text ad : Region} {s : State} (h : OpenAccepts P dst nonce text ad s)
    (htag : expectedTag P nonce text ad s = receivedTag text s) :
    Answers s (eaxOpen P dst nonce text ad s) .ok (BitVec.ofNat 32 (text.n - s.TAGSIZE)) [] := by
  rw [eaxOpen_of_accepts h, openEffect_of_match htag]
  rfl

/-- A message whose tag does not match fails (R165, R192). -/
theorem OpenAccepts.failedWith {P : Params} {dst nonce text ad : Region} {s : State} (h : OpenAccepts P dst nonce text ad s)
    (htag : expectedTag P nonce text ad s ≠ receivedTag text s) :
    FailedWith .authFail s (eaxOpen P dst nonce text ad s) := by
  rw [eaxOpen_of_accepts h, openEffect_of_mismatch htag]
  exact failedWith_raise .authFail { s with portLog := openMacLog P nonce text ad s, draws := s.draws + 1 }

/-- Settles O35: the run of counter mode, and a body length that a word holds. -/
theorem eaxOpenDecryptsOnMatch : Obligations.EaxOpenDecryptsOnMatch := by
  intro dst nonce text ad s
  refine .of_runAt fun P ⟨h, htag⟩ => ⟨h.ctrRan htag, _, ?_, h.answers htag⟩
  have hlen : text.n < 2 ^ 32 := text.len.isLt
  rw [BitVec.toNat_ofNat, Nat.mod_eq_of_lt (by omega)]

/-- A MAC evaluation calls no `E`. -/
theorem encrypt_not_mem_omacEvents (P : Params) (t : Byte) (payload x : List Byte) :
    PortEvent.encrypt x ∉ omacEvents P t payload := by
  simp only [omacEvents]
  split <;> simp

/-- Settles O36: the failure, and a log of MAC evaluations only. -/
theorem eaxOpenRejectsMismatch : Obligations.EaxOpenRejectsMismatch := by
  intro dst nonce text ad s
  refine .of_runAt fun P ⟨h, htag⟩ => ?_
  obtain ⟨hanswers, hsame⟩ := h.failedWith htag
  refine ⟨hanswers, hsame, fun x hx => ?_⟩
  rw [runAt, eaxOpen_of_accepts h, openEffect_of_mismatch htag] at hx
  simpa [openMacLog, encrypt_not_mem_omacEvents] using hx

/-! Traffic on the function ports -/

/-- A command of checks and effect drives nothing onto the function ports when its effect does not. -/
theorem guarded_portLog {s effect : State} (failure : Option Status) (h : effect.portLog = s.portLog) :
    (s.guarded failure effect).portLog = s.portLog := by
  cases failure with
  | none => exact h
  | some st => exact raise_portLog s st

theorem streamXor_portLog (dst src n : Nat) (s : State) : (streamXor dst src n s).portLog = s.portLog := by
  obtain ⟨_, _, _, _, hframe⟩ := streamXor_frame dst src n s
  rw [hframe]

/-- Settles O40: the log of each command, from its effect when it is accepted. -/
theorem functionPortTraffic : Obligations.FunctionPortTraffic := by
  intro P i s
  cases i with
  | ccXor | ccNew | eaxNew | eaxNonceSize | eaxOverhead => exact guarded_portLog _ rfl
  | ccStream dst src => exact guarded_portLog _ (streamXor_portLog dst.a src.a src.n s)
  | eaxSeal dst nonce text ad =>
    intro t haccepts
    have hread : t.BUF.readBytes t.draws dst.a text.n = sealedText P dst nonce text s := haccepts.readBytes_eq _
    rw [hread]
    simp only [t, runAt, eaxSeal_of_accepts haccepts, respond_portLog]
  | eaxOpen dst nonce text ad =>
    intro t haccepts
    simp only [t, runAt, eaxOpen_of_accepts haccepts]
    by_cases htag : expectedTag P nonce text ad s = receivedTag text s
    · rw [openEffect_of_match htag, if_pos htag, respond_portLog, openMacLog]
    · rw [openEffect_of_mismatch htag, if_neg htag, raise_portLog, openMacLog, List.append_nil]

end Sys2Proof.Machine
end

section
/-! SUPPORT. A sealed message on its way (spec/43_eax.md R174, R175, spec/70_reset_and_hazards.md R226): placed as one text
and opened, under the same functions or others, whole or with a byte of its tag changed. -/

namespace Sys2Proof.Machine

/-- The body and the tag of a message that was placed as one text. -/
theorem openBody_receivedTag_of_operand {text : Region} {u : State} {body tag : List Byte}
    (hoperand : u.operand text = body ++ tag) (hlen : text.n = body.length + u.TAGSIZE) :
    openBody text u = body ∧ receivedTag text u = tag := by
  have hbody : text.n - u.TAGSIZE = body.length := by omega
  rw [openBody, receivedTag, hbody]
  rw [State.operand, hlen, Memory.readBytes_append] at hoperand
  exact List.append_inj hoperand (by simp)

/-- The tag that the functions of `P'` give a sealed message, once it is placed with nonce and associated data as they were
when it was sealed. -/
theorem expectedTag_of_sealed (P' : Params) {nonce ad nonce' text' ad' : Region} {s u : State} {body : List Byte}
    (htagSize : u.TAGSIZE = s.TAGSIZE) (hbody : openBody text' u = body) (hnonce : u.operand nonce' = s.operand nonce)
    (had : u.operand ad' = s.operand ad) :
    expectedTag P' nonce' text' ad' u =
      eaxTag s.TAGSIZE (omac P' 0x00 (s.operand nonce)) (omac P' 0x01 (s.operand ad)) (omac P' 0x02 body) := by
  rw [expectedTag, authNonce, authData, htagSize, hbody, hnonce, had]

/-- Settles O59: the expected tag is the one of the new functions, and the received one is the tag of the sealing. -/
theorem rekeyedOpenFollowsNewFunctions : Obligations.RekeyedOpenFollowsNewFunctions := by
  intro P P' dst nonce text ad dst' nonce' text' ad' s u tag hseal t sealed hanswers htagSize hopen hlen hoperand hnonce had
    newNonce newTag v
  have hsealed : sealed.length = text.n := by simp [sealed]
  obtain ⟨hbody, hreceived⟩ := openBody_receivedTag_of_operand hoperand (by rw [hlen, hsealed, htagSize])
  have hexpected : expectedTag P' nonce' text' ad' u = newTag := expectedTag_of_sealed P' htagSize hbody hnonce had
  have hn : text'.n - u.TAGSIZE = text.n := by omega
  have hauth : authNonce P' nonce' u = newNonce := congrArg (omac P' 0x00) hnonce
  refine ⟨fun hmatch => ?_, fun hmismatch => ?_⟩
  · have htag : expectedTag P' nonce' text' ad' u = receivedTag text' u := by rw [hexpected, hreceived, hmatch]
    have hopened := hopen.answers htag
    have hran := hopen.ctrRan htag
    rw [hn, Region.n, BitVec.ofNat_toNat, BitVec.setWidth_eq] at hopened
    rw [hn, hauth] at hran
    exact ⟨hopened, hran⟩
  · exact hopen.failedWith (by rwa [hexpected, hreceived])

/-- XOR with the same keystream twice gives the bytes back. -/
theorem xorBytes_xorBytes {a ks : List Byte} (h : a.length ≤ ks.length) : xorBytes (xorBytes a ks) ks = a := by
  refine List.ext_getElem (by simp [xorBytes, h]) fun i hi hia => ?_
  simp [xorBytes]

/-- Settles O38: the same functions give the tag of the sealing, and the keystream of the sealing gives the plaintext back. -/
theorem sealThenOpenRestores : Obligations.SealThenOpenRestores := by
  intro P dst nonce text ad dst' nonce' text' ad' s u tag hseal t hanswers htagSize hopen hlen hoperand hnonce had v
  have hsealed : t.BUF.readBytes t.draws dst.a text.n = sealedText P dst nonce text s := hseal.readBytes_eq _
  have htag : sealTag P dst nonce text ad s = tag := (hseal.answers.unique hanswers).2.2
  obtain ⟨hbody, _⟩ := openBody_receivedTag_of_operand hoperand (by rw [Memory.readBytes_length, hlen, htagSize])
  obtain ⟨hmatch, _⟩ := rekeyedOpenFollowsNewFunctions P P dst nonce text ad dst' nonce' text' ad' s u tag hseal hanswers
    htagSize hopen hlen hoperand hnonce had
  obtain ⟨hopened, hxor, _⟩ := hmatch (by rw [hsealed]; exact htag)
  refine ⟨hopened, ?_⟩
  have hn : text'.n - u.TAGSIZE = text.n := by omega
  rw [openBody, hn, hsealed] at hbody
  rw [hxor.read, hbody, hseal.sealedText_eq]
  exact xorBytes_xorBytes (by simp)

/-- A range without the address of a write reads as before. -/
theorem readBytes_set_of_forall_ne {m : Memory} {a b n : Nat} (v : Byte) (d : Nat) (h : ∀ i, i < n → b + i ≠ a) :
    (m.set a v).readBytes d b n = m.readBytes d b n :=
  Memory.readBytes_congr fun i hi => Memory.readByte_congr (by rw [Memory.get?_set, if_neg (h i hi)])

/-- A byte apart from an operand does not change what is read there. -/
theorem operand_set_of_apart {s : State} {a : Nat} {v : Byte} {r : Region} (h : Apart a 1 r) :
    State.operand { s with BUF := s.BUF.set a v } r = s.operand r :=
  readBytes_set_of_forall_ne v s.draws fun i hi => by rcases h with h | h | h | h <;> omega

/-- A range with the address of a write reads differently when the byte does. -/
theorem readBytes_set_ne {m : Memory} {a b n d : Nat} {v : Byte} (hlow : b ≤ a) (hhigh : a < b + n)
    (hv : v ≠ m.readByte d a) : (m.set a v).readBytes d b n ≠ m.readBytes d b n := by
  intro heq
  have hi : a - b < n := by omega
  have hbyte : ((m.set a v).readBytes d b n)[a - b]'(by simpa) = (m.readBytes d b n)[a - b]'(by simpa) := by simp only [heq]
  have hset : (m.set a v).readByte d a = v := Memory.readByte_of_get? (by rw [Memory.get?_set, if_pos rfl])
  rw [Memory.readBytes_getElem, Memory.readBytes_getElem, Nat.add_sub_cancel' hlow, hset] at hbyte
  exact hv hbyte

/-- Settles O39: the expected tag is the one of the message as it was, and the received one is not. -/
theorem tamperedTagRejected : Obligations.TamperedTagRejected := by
  intro P dst nonce text ad s a v haccepts htag hlow hhigh hnonce had hv s'
  have ⟨_, _, hlong, _⟩ := haccepts
  have hbefore (i : Nat) (hi : i < text.n - s.TAGSIZE) : text.a + i ≠ a := by omega
  have hbody : openBody text s' = openBody text s := readBytes_set_of_forall_ne v s.draws hbefore
  have hexpected : expectedTag P nonce text ad s' = expectedTag P nonce text ad s :=
    expectedTag_of_sealed P rfl hbody (operand_set_of_apart hnonce) (operand_set_of_apart had)
  have hreceived : receivedTag text s' ≠ receivedTag text s :=
    readBytes_set_ne hlow (by omega) hv
  have haccepts' : OpenAccepts P dst nonce text ad s' := haccepts
  obtain ⟨hanswers, _⟩ := haccepts'.failedWith (by rw [hexpected, htag]; exact hreceived.symm)
  exact hanswers.lastStatus_eq

end Sys2Proof.Machine
end
